-- ==== Sys2Proof/Word.lean ====
section
/-! DEFINITION. The fixed widths of the interface (R7, R60, R67 of the spec). -/

namespace Sys2Proof

/-- `DATAW`: the data operand and every buffer byte, 8 bits unsigned (R7, R20). Bit 7 is the most significant bit
(word numbering, R8(a)). -/
abbrev Byte := BitVec 8

/-- `CMDW`: the one command word of format `C`, 80 bits (R60). -/
abbrev CommandWord := BitVec 80

/-- `RSPW`: the response word of format `S`, 152 bits (R67). -/
abbrev ResponseWord := BitVec 152

end Sys2Proof
end

