-- ==== Sys2Proof/Config.lean ====
section
/-! DEFINITION. The parameter of a built controller (R6, R7). The spec leaves no value of any command open (R11, R180),
so there is no free value here. -/

namespace Sys2Proof

/-- `BYTE_CAPACITY = N`, fixed when the controller is built, `0 <= N <= 2^60 - 1` (R6, R171). -/
structure Config where
  /-- `N`, the number of bytes of the buffer. -/
  byteCapacity : Fin (2 ^ 60)
deriving DecidableEq, Repr

/-- `BIT_CAPACITY = 8 * BYTE_CAPACITY`, derived and exact (R7). -/
def Config.bitCapacity (c : Config) : Nat := c.byteCapacity.val * 8

end Sys2Proof
end

