-- ==== Sys2Proof/Machine/Memory.lean ====
section
/-! DEFINITION. The buffer's bytes as data: reading and writing one byte, the canonical form, and the proof that a write
below the capacity keeps it (which the controller's state carries, see `Store`). -/

namespace Sys2Proof.Machine

/-- Bytes as (address, byte) cells; an address that no cell lists reads `unlistedByte` (log entry 7). -/
abbrev Memory := List Host.Cell

/-- What a byte that no cell lists reads as: 0x00, its value after reset (R32, R48(a)). -/
def unlistedByte : Byte := 0x00

/-- `buffer[a]` (R10). -/
def Memory.read : Memory → Nat → Byte
  | [], _ => unlistedByte
  | c :: m, a => if c.1 = a then c.2 else Memory.read m a

/-- The cells of every other address. -/
def Memory.erase (m : Memory) (a : Nat) : Memory := m.filter (fun c => c.1 != a)

/-- The cell `(a, v)` put before the first cell of a higher address. -/
def Memory.insert (m : Memory) (a : Nat) (v : Byte) : Memory :=
  match m with
  | [] => [(a, v)]
  | c :: m => if a < c.1 then (a, v) :: c :: m else c :: Memory.insert m a v

/-- `buffer[a] <- v`, every other byte unchanged (R10); writing the unlisted value removes the cell. -/
def Memory.write (m : Memory) (a : Nat) (v : Byte) : Memory :=
  if v = unlistedByte then m.erase a else (m.erase a).insert a v

/-- The canonical form of a buffer of `n` bytes: addresses strictly rising and below `n`, and no cell that holds the
unlisted value. Two buffers of this form that read alike are equal data (R20). -/
abbrev Memory.wf (n : Nat) (m : Memory) : Prop :=
  m.Pairwise (fun c d => c.1 < d.1) ∧ ∀ c ∈ m, c.1 < n ∧ c.2 ≠ unlistedByte

/-- The empty list of cells is canonical at every capacity. -/
theorem Memory.wf_nil (n : Nat) : Memory.wf n [] := by simp [Memory.wf]

theorem Memory.mem_erase {m : Memory} {a : Nat} {c : Host.Cell} : c ∈ m.erase a ↔ c ∈ m ∧ c.1 ≠ a := by
  simp [Memory.erase]

theorem Memory.mem_insert {m : Memory} {a : Nat} {v : Byte} {c : Host.Cell} :
    c ∈ m.insert a v ↔ c = (a, v) ∨ c ∈ m := by
  induction m with
  | nil => simp [Memory.insert]
  | cons d m ih =>
    rw [Memory.insert]
    split
    · simp
    · simp only [List.mem_cons, ih]; tauto

theorem Memory.pairwise_insert {m : Memory} {a : Nat} (v : Byte) (hm : m.Pairwise (fun c d => c.1 < d.1))
    (h : ∀ c ∈ m, c.1 ≠ a) : (m.insert a v).Pairwise (fun c d => c.1 < d.1) := by
  induction m with
  | nil => simp [Memory.insert]
  | cons d m ih =>
    have hd : d.1 ≠ a := h d List.mem_cons_self
    obtain ⟨hdm, hm'⟩ := List.pairwise_cons.mp hm
    rw [Memory.insert]
    split
    · next hlt =>
      refine List.pairwise_cons.mpr ⟨fun c hc => ?_, hm⟩
      rcases List.mem_cons.mp hc with rfl | hc
      · exact hlt
      · exact hlt.trans (hdm c hc)
    · refine List.pairwise_cons.mpr
        ⟨fun c hc => ?_, ih hm' fun c hc => h c (List.mem_cons_of_mem _ hc)⟩
      rcases Memory.mem_insert.mp hc with rfl | hc
      · show d.1 < a
        omega
      · exact hdm c hc

/-- A write below the capacity keeps the canonical form. -/
theorem Memory.write_wf {n : Nat} {m : Memory} (hm : m.wf n) {a : Nat} (ha : a < n) (v : Byte) : (m.write a v).wf n := by
  have herase : (m.erase a).wf n :=
    ⟨hm.1.filter _, fun c hc => hm.2 c (Memory.mem_erase.mp hc).1⟩
  rw [Memory.write]
  split
  · exact herase
  · next hv =>
    refine ⟨Memory.pairwise_insert v herase.1 fun c hc => (Memory.mem_erase.mp hc).2, fun c hc => ?_⟩
    rcases Memory.mem_insert.mp hc with rfl | hc
    · exact ⟨ha, hv⟩
    · exact herase.2 c hc

end Sys2Proof.Machine
end

