-- ==== Sys2Proof/Syntax.lean ====
section
/-! DEFINITION. The six commands of BITSTORE-CMD 1.0, one constructor for each row of the opcode map (R64). -/

namespace Sys2Proof

/-- Which kind of index a command carries (R69; glossary of the scope file, "Unit"). -/
inductive IndexUnit where
  | bit
  | byte
deriving DecidableEq, Repr

/-- A decoded command. The index is the signed integer `sext_64(cmd[63:0])` (R62); formulas compute over mathematical
integers (R9), so it is an `Int` here and `WellFormed` says that it fits the field. The ignored `data` field of the five
commands that do not read it (R63) is no operand. -/
inductive Instr where
  /-- `GET_BIT index` (R100). -/
  | getBit (index : Int)
  /-- `SET_BIT index` (R101). -/
  | setBit (index : Int)
  /-- `CLEAR_BIT index` (R102). -/
  | clearBit (index : Int)
  /-- `TOGGLE_BIT index` (R103). -/
  | toggleBit (index : Int)
  /-- `SET_BYTE index, value` (R120). -/
  | setByte (index : Int) (value : Byte)
  /-- `GET_BYTE index` (R121). -/
  | getByte (index : Int)
deriving DecidableEq, Repr

end Sys2Proof
end

