-- ==== Sys2Proof/Machine/State.lean ====
section
/-! DEFINITION. The controller's state (`Store`), the state of the machine the host steps, which is a controller with its
configuration beside the host's side of the port (`State`), the reasons a step can stop, and the state right after reset. -/

namespace Sys2Proof.Machine

/-- The complete architectural state of a controller of configuration `c`: its buffer of `N` bytes and nothing else (R20).
`N` is an argument of the type, fixed with the configuration, and no field (R21). The bytes are held as canonical cells, so
two stores are equal exactly when they agree at every byte address below `N` (R20; log entry 7). -/
structure Store (c : Config) where
  /-- The bytes that are not 0x00. -/
  cells : Memory
  /-- Addresses strictly rising and below `N`, no cell 0x00: the buffer has `N` bytes and one representation. -/
  canonical : cells.wf c.byteCapacity.val
deriving DecidableEq, Repr

/-- The all-zero buffer (R32, R170). -/
def Store.zero (c : Config) : Store c := { cells := [], canonical := Memory.wf_nil _ }

/-- Whether the first reset has been applied (R34, R172, R174; log entry 4). -/
inductive Lifecycle where
  /-- Before the first reset: the buffer's contents are unspecified, commands have no meaning (R172). -/
  | beforeReset
  /-- After the first reset: every rule holds (R174). -/
  | ready
deriving DecidableEq, Repr

/-- One move of the host (R11, R49): present a command word, or apply reset between two commands (R173). -/
inductive HostMove where
  | command (word : CommandWord)
  | reset
deriving DecidableEq, Repr

/-- The five fields of a response (R27, R67). `errIndex` and `errBound` are the signed integers the 64-bit fields
carry. -/
structure Response where
  status : Byte
  rdata : Byte
  unit : Byte
  errIndex : Int
  errBound : Int
deriving DecidableEq, Repr

/-- What the host's step function acts on: the configuration, the controller's state `store`, which is the whole of the
spec's state (R20), and what stands outside the controller. The host's interface gives the step no other argument and no
other result, so the configuration (R21), the moves presented and the responses handed back (R11) travel in this record
beside the store; no command reads or changes them but to take its word and append its response (log entries 1 and 2). -/
structure State where
  /-- The configuration: the parameter `N`, fixed when the controller is built, which no step changes (R6, R21, R171; log
  entry 1). -/
  cfg : Config
  /-- The controller's state: the buffer (R20). -/
  store : Store cfg
  /-- Whether the first reset has been applied (R172; log entry 4). -/
  lifecycle : Lifecycle
  /-- The host's moves not yet made, the next one first (R11, R179; log entry 2). -/
  pending : List HostMove
  /-- The responses delivered so far, oldest first: the host's record, never read by a step (R30, R179; log entry 2). -/
  responses : List Response
deriving DecidableEq, Repr

/-- Why the machine faults. -/
inductive Fault where
  /-- Raised by `memRead` and `memWrite` when the address is not below `N`, the precondition that R10 lays on their
  callers. No command reaches it, since the range check comes first (R10, R89). Safe: it stops where the spec gives no
  access (log entry 8). -/
  | outsideBuffer (addr : Nat)
deriving DecidableEq, Repr

/-- Why the machine gives no meaning. -/
inductive Refusal where
  /-- Raised by an arm of `exec` that has no meaning yet; no arm does. Safe. -/
  | notModelled (mnemonic : String)
  /-- Raised by every command presented before the first reset (R172, D15). Safe: nothing is claimed there. -/
  | beforeFirstReset
deriving DecidableEq, Repr

/-- What every meaning and the step answer. -/
abbrev Result := Host.Outcome State Fault Refusal

/-- The machine of configuration `c` right after its reset, with nothing presented yet (R32, R170, R171). -/
def State.resetOf (c : Config) : State :=
  { cfg := c, store := Store.zero c, lifecycle := .ready, pending := [], responses := [] }

/-- The machine right after reset. The spec leaves `N` to whoever builds the controller (R6); this one has the capacity
of the source's scenario, `N = 10` (S1). DESIGN CHOICE, unsafe for a claim that rests on it (log entry 1). -/
def State.reset : State := State.resetOf { byteCapacity := ⟨10, by decide⟩ }

end Sys2Proof.Machine
end

