-- ==== Sys2Proof/Machine/Operands.lean ====
section
/-! DEFINITION. The index decoder's arithmetic: locating a bit (R82), the masks (R84), the hardware form (R83), and
reading the addressed bit out of a byte (R85). The operand forms of the command set are one bit index and one byte index;
their range checks are in Ops.lean, since a failed check ends the command. The hardware has no flags (R24), so there is no
flag computation. -/

namespace Sys2Proof.Machine

/-- What `Locate` returns (R82): the byte address, and the bit's position in word numbering. -/
structure BitPlace where
  bytePos : Nat
  bitPos : Nat
  mask : Byte
deriving DecidableEq, Repr

/-- The mask `1 << bit_pos`, 8 bits, exactly one bit set (R82, R84). -/
def maskOf (bitPos : Nat) : Byte := 1#8 <<< bitPos

/-- `Locate(index)` for an index the range check has passed, so that it is a natural number (R82): the offset
`o = index mod 8` is in store numbering, MSB-first; `bit_pos = 7 - o` is in word numbering (R8, R40). -/
def locate (index : Nat) : BitPlace :=
  { bytePos := index / 8
    bitPos := 7 - index % 8
    mask := maskOf (7 - index % 8) }

/-- The hardware form of `Locate` (R83): `byte_pos = zext(index[63:3])`, `bit_pos` the complement of `index[2:0]`,
`mask = 0x80 >> o`. It means something only after the range check has passed. -/
def locateHardware (v : BitVec 64) : BitPlace :=
  { bytePos := (v.extractLsb' 3 61).toNat
    bitPos := (~~~ v.extractLsb' 0 3).toNat
    mask := 0x80#8 >>> (v.extractLsb' 0 3).toNat }

/-- The value of the addressed bit, `(b >> bit_pos) & 1`: 0 or 1, never the mask (R85). -/
def readBit (b : Byte) (bitPos : Nat) : Byte := (b >>> bitPos) &&& 1

end Sys2Proof.Machine
end

