-- ==== Sys2Proof/WellFormed.lean ====
section
/-! DEFINITION. Which commands the encoding can carry: the index fits the 64-bit signed field (R26, R62, R72(a)). A byte
value always fits its field, by its type (R63, R72(b)). -/

namespace Sys2Proof

/-- The index operand of a command (R26: every command carries one). -/
def Instr.index : Instr → Int
  | .getBit i => i
  | .setBit i => i
  | .clearBit i => i
  | .toggleBit i => i
  | .setByte i _ => i
  | .getByte i => i

/-- The unit of the command's index (R64, column "index unit"; R69). -/
def Instr.unit : Instr → IndexUnit
  | .getBit _ => .bit
  | .setBit _ => .bit
  | .clearBit _ => .bit
  | .toggleBit _ => .bit
  | .setByte _ _ => .byte
  | .getByte _ => .byte

/-- The range of the signed 64-bit index field, `-2^63 .. 2^63 - 1` (R26, R62). -/
abbrev IndexFits (i : Int) : Prop := -(2 ^ 63) ≤ i ∧ i < 2 ^ 63

/-- A command that has a command word (R72(a)). -/
abbrev Instr.WellFormed (i : Instr) : Prop := IndexFits i.index

end Sys2Proof
end

