-- ==== Sys2Proof/Decode.lean ====
section
/-! DEFINITION. The decoder of R74, total on 80-bit words and rejecting by name (R65), and the encoder of R74. -/

namespace Sys2Proof

/-- `op = cmd[79:72]` (R61). -/
def opField (w : CommandWord) : BitVec 8 := w.extractLsb' 72 8

/-- `data = cmd[71:64]`, unsigned (R61, R63). -/
def dataField (w : CommandWord) : Byte := w.extractLsb' 64 8

/-- `cmd[63:0]`, the raw index field (R61). -/
def indexBits (w : CommandWord) : BitVec 64 := w.extractLsb' 0 64

/-- `index = sext_64(cmd[63:0])` (R62, R9): not scaled, shifted, biased or truncated. -/
def indexField (w : CommandWord) : Int := (indexBits w).toInt

/-- What a word decodes to: one of the six commands, or an illegal command, named with its opcode (R60, R65). -/
inductive Decoded where
  | instr (i : Instr)
  | illegalOpcode (op : BitVec 8)
deriving DecidableEq, Repr

/-- The decoder, in full (R74): it reads no state, selects by `op` alone (R64), and every opcode outside `0x01 .. 0x06`
is illegal whatever the other fields hold (R65). -/
def decode (w : CommandWord) : Decoded :=
  match (opField w).toNat with
  | 1 => .instr (.getBit (indexField w))
  | 2 => .instr (.setBit (indexField w))
  | 3 => .instr (.clearBit (indexField w))
  | 4 => .instr (.toggleBit (indexField w))
  | 5 => .instr (.setByte (indexField w) (dataField w))
  | 6 => .instr (.getByte (indexField w))
  | _ => .illegalOpcode (opField w)

/-- The opcode of a command (R64). -/
def Instr.opcode : Instr → BitVec 8
  | .getBit _ => 0x01
  | .setBit _ => 0x02
  | .clearBit _ => 0x03
  | .toggleBit _ => 0x04
  | .setByte _ _ => 0x05
  | .getByte _ => 0x06

/-- The `data` field the assembler emits: the value of `SET_BYTE`, 0 for the commands that ignore it (R70, R74). -/
def Instr.data : Instr → Byte
  | .setByte _ v => v
  | .getBit _ => 0
  | .setBit _ => 0
  | .clearBit _ => 0
  | .toggleBit _ => 0
  | .getByte _ => 0

/-- `{op, data, index}` as one word (R61, R9). -/
def packCommand (op data : BitVec 8) (index : BitVec 64) : CommandWord := op ++ data ++ index

/-- The encoder (R74): `(op << 72) | (data << 64) | (index mod 2^64)`. -/
def encode (i : Instr) : CommandWord := packCommand i.opcode i.data (BitVec.ofInt 64 i.index)

/-- The command word whose low `nbits` bits are those of `w`, every bit above them 0. A command is one 80-bit word whose
bit 0 is its least significant bit (R8(a), R60); no byte layout of a word exists (R73; log entry 14). -/
def tableWord (nbits w : Nat) : CommandWord := BitVec.ofNat 80 (w % 2 ^ nbits)

/-- The command the decoder reads from the opcode table's numbering of a word; `none` where it is illegal. -/
def decodeTableWord (nbits w : Nat) : Option Instr :=
  match decode (tableWord nbits w) with
  | .instr i => some i
  | .illegalOpcode _ => none

end Sys2Proof
end

