-- ==== Sys2Proof/Machine/Response.lean ====
section
/-! DEFINITION. Responses: status and unit codes (R68, R69), the three kinds of response with their zero fill (R27), and
the packed response word (R67, R75). -/

namespace Sys2Proof.Machine

/-- `OK` (R68). -/
def statusOk : Byte := 0x00

/-- `OUT_OF_RANGE` (R68, R140). -/
def statusOutOfRange : Byte := 0x01

/-- `ILLEGAL_COMMAND` (R68, R143). -/
def statusIllegalCommand : Byte := 0x02

/-- The unit codes (R69). -/
def unitCode : IndexUnit → Byte
  | .bit => 0x00
  | .byte => 0x01

/-- `respond OK(rdata)` (R10, R68): every field without a meaning is 0. -/
def Response.ok (rdata : Byte) : Response :=
  { status := statusOk, rdata := rdata, unit := 0, errIndex := 0, errBound := 0 }

/-- The response of `raise OutOfRange(unit, index, bound)`: the index exactly as given and the exclusive bound (R142). -/
def Response.outOfRange (u : IndexUnit) (index : Int) (bound : Nat) : Response :=
  { status := statusOutOfRange, rdata := 0, unit := unitCode u, errIndex := index, errBound := bound }

/-- The response of `raise IllegalCommand()` (R143). -/
def Response.illegalCommand : Response :=
  { status := statusIllegalCommand, rdata := 0, unit := 0, errIndex := 0, errBound := 0 }

/-- `rsp = {status, rdata, unit, err_index, err_bound}`, the two integers modulo 2^64 (R67, R75). -/
def Response.pack (r : Response) : ResponseWord :=
  r.status ++ r.rdata ++ r.unit ++ BitVec.ofInt 64 r.errIndex ++ BitVec.ofInt 64 r.errBound

/-- The five fields of a response word, read back at the positions of R67. -/
def Response.unpack (w : ResponseWord) : Response :=
  { status := w.extractLsb' 144 8
    rdata := w.extractLsb' 136 8
    unit := w.extractLsb' 128 8
    errIndex := (w.extractLsb' 64 64).toInt
    errBound := (w.extractLsb' 0 64).toInt }

end Sys2Proof.Machine
end

