-- ==== Sys2Proof/Machine/Ops.lean ====
section
/-! DEFINITION. The primitives of R10 over the controller's state, in the order a command uses them (R89): the range checks
R80 and R81, MemRead and MemWrite, and the three ways a command ends. Raising an error is the machine's whole counterpart of
taking an exception (R145): nothing is saved and control goes nowhere. There is no return from one (R146). Last, how a
command of the controller is carried out in the host's machine, and the reset event. -/

namespace Sys2Proof.Machine

/-- The exclusive upper bound of the valid range of a unit (R141). -/
def boundOf (c : Config) : IndexUnit → Nat
  | .bit => c.bitCapacity
  | .byte => c.byteCapacity.val

/-- `buffer[a]`: the byte view (R20, R28). -/
def Store.byteAt {c : Config} (st : Store c) (a : Nat) : Byte := st.cells.read a

/-- The bit view, 0 or 1 (R29). -/
def Store.bitAt {c : Config} (st : Store c) (i : Nat) : Byte :=
  readBit (st.byteAt (locate i).bytePos) (locate i).bitPos

/-- The store after `buffer[a] <- v` (R10). -/
def Store.setByteAt {c : Config} (st : Store c) (a : Nat) (h : a < c.byteCapacity.val) (v : Byte) : Store c :=
  { cells := st.cells.write a v, canonical := Memory.write_wf st.canonical h v }

/-- What a command of the controller ends in: the store after it with its response (R11), or the fault of an access whose
precondition does not hold (log entry 8). -/
inductive Reply (c : Config) where
  | done (store : Store c) (rsp : Response)
  | fault (f : Fault)
deriving DecidableEq, Repr

/-- `respond OK(rdata)` (R10, R68). -/
def respondOk {c : Config} (rdata : Byte) (st : Store c) : Reply c := .done st (Response.ok rdata)

/-- `raise OutOfRange(unit, index, bound)` (R10, R142, R145): the command ends with its error response and no other
effect. -/
def raiseOutOfRange {c : Config} (u : IndexUnit) (index : Int) (bound : Nat) (st : Store c) : Reply c :=
  .done st (Response.outOfRange u index bound)

/-- `raise IllegalCommand()` (R10, R143). -/
def raiseIllegalCommand {c : Config} (st : Store c) : Reply c := .done st Response.illegalCommand

/-- The range check on the raw signed index, before any division (R80, R81): it fails when `index < 0` or
`index >= bound`, and the rest of the command goes on with the index as a natural number. -/
def checkIndex {c : Config} (u : IndexUnit) (index : Int) (st : Store c) (k : Nat → Reply c) : Reply c :=
  if index < 0 ∨ index ≥ (boundOf c u : Int) then raiseOutOfRange u index (boundOf c u) st else k index.toNat

/-- `CheckBit(index)` (R80). -/
def checkBit {c : Config} (index : Int) (st : Store c) (k : Nat → Reply c) : Reply c := checkIndex .bit index st k

/-- `CheckByte(index)` (R81): compared with `N`, never multiplied or divided by 8. -/
def checkByte {c : Config} (index : Int) (st : Store c) (k : Nat → Reply c) : Reply c := checkIndex .byte index st k

/-- `MemRead(addr, 1)` with its precondition `addr < N` (R10). -/
def memRead {c : Config} (addr : Nat) (st : Store c) (k : Byte → Reply c) : Reply c :=
  if addr < c.byteCapacity.val then k (st.byteAt addr) else .fault (.outsideBuffer addr)

/-- `MemWrite(addr, 1, v)` with its precondition `addr < N` (R10). -/
def memWrite {c : Config} (addr : Nat) (v : Byte) (st : Store c) (k : Store c → Reply c) : Reply c :=
  if h : addr < c.byteCapacity.val then k (st.setByteAt addr h v) else .fault (.outsideBuffer addr)

/-! ## The host's machine -/

/-- `N` of this machine (R6). -/
def State.byteCapacity (s : State) : Nat := s.cfg.byteCapacity.val

/-- `8N` of this machine (R7). -/
def State.bitCapacity (s : State) : Nat := s.cfg.bitCapacity

/-- The bound of a unit in this machine (R141). -/
def State.boundOf (s : State) (u : IndexUnit) : Nat := Sys2Proof.Machine.boundOf s.cfg u

/-- The buffer's cells. -/
def State.buffer (s : State) : Memory := s.store.cells

/-- The model's read of one byte of the buffer (R20, R28). -/
def State.byteAt (s : State) (a : Nat) : Byte := s.store.byteAt a

/-- The model's read of one bit of the buffer, 0 or 1 (R29). -/
def State.bitAt (s : State) (i : Nat) : Byte := s.store.bitAt i

/-- The machine after a command that left `st` and answered `r`; nothing else about the command is kept (R27, R30). -/
def State.after (s : State) (st : Store s.cfg) (r : Response) : State :=
  { s with store := st, responses := s.responses ++ [r] }

/-- A command has a meaning only after the first reset (R172). -/
def afterReset (s : State) (k : Result) : Result :=
  match s.lifecycle with
  | .ready => k
  | .beforeReset => .refused .beforeFirstReset

/-- A command of the controller carried out in the host's machine: the store changes as the reply says, and the response is
handed to the host (R11, R67). -/
def perform (s : State) (reply : Reply s.cfg) : Result :=
  afterReset s <|
  match reply with
  | .done st r => .next (s.after st r)
  | .fault f => .fault f

/-- The reset event (R170, R171): every byte 0x00, the capacity and the length unchanged, no response, from any state
and also the first one (R174). The responses delivered before stay in the host's record (log entry 6). -/
def resetEvent (s : State) : State := { s with lifecycle := .ready, store := Store.zero s.cfg }

end Sys2Proof.Machine
end

