-- ==== Sys2Proof/Machine/BitCommands.lean ====
section
/-! DEFINITION. The four commands that address one bit (R100 to R103), line by line as the spec's pseudocode. -/

namespace Sys2Proof.Machine

/-- `GET_BIT index` (R100): a pure read of one bit. -/
def Store.getBit {c : Config} (index : Int) (st : Store c) : Reply c :=
  checkBit index st fun i =>
  memRead (locate i).bytePos st fun b =>
  respondOk (readBit b (locate i).bitPos) st

/-- `SET_BIT index` (R101): the addressed bit becomes 1, `rdata` is 0. -/
def Store.setBit {c : Config} (index : Int) (st : Store c) : Reply c :=
  checkBit index st fun i =>
  memRead (locate i).bytePos st fun b =>
  memWrite (locate i).bytePos (b ||| (locate i).mask) st fun st' =>
  respondOk 0 st'

/-- `CLEAR_BIT index` (R102): the addressed bit becomes 0, `rdata` is 0. -/
def Store.clearBit {c : Config} (index : Int) (st : Store c) : Reply c :=
  checkBit index st fun i =>
  memRead (locate i).bytePos st fun b =>
  memWrite (locate i).bytePos (b &&& ~~~ (locate i).mask) st fun st' =>
  respondOk 0 st'

/-- `TOGGLE_BIT index` (R103): the addressed bit is inverted, `rdata` is its value after the flip. -/
def Store.toggleBit {c : Config} (index : Int) (st : Store c) : Reply c :=
  checkBit index st fun i =>
  memRead (locate i).bytePos st fun b =>
  memWrite (locate i).bytePos (b ^^^ (locate i).mask) st fun st' =>
  respondOk (readBit (b ^^^ (locate i).mask) (locate i).bitPos) st'

/-- `GET_BIT` in the host's machine (R100). -/
def execGetBit (index : Int) (s : State) : Result := perform s (s.store.getBit index)

/-- `SET_BIT` in the host's machine (R101). -/
def execSetBit (index : Int) (s : State) : Result := perform s (s.store.setBit index)

/-- `CLEAR_BIT` in the host's machine (R102). -/
def execClearBit (index : Int) (s : State) : Result := perform s (s.store.clearBit index)

/-- `TOGGLE_BIT` in the host's machine (R103). -/
def execToggleBit (index : Int) (s : State) : Result := perform s (s.store.toggleBit index)

end Sys2Proof.Machine
end

