-- ==== Sys2Proof/Machine/ByteCommands.lean ====
section
/-! DEFINITION. The two commands that address a whole byte (R120, R121), line by line as the spec's pseudocode. -/

namespace Sys2Proof.Machine

/-- `SET_BYTE index, value` (R120): all 8 bits replaced, the old byte not read, `rdata` is 0. -/
def Store.setByte {c : Config} (index : Int) (value : Byte) (st : Store c) : Reply c :=
  checkByte index st fun i =>
  memWrite i value st fun st' =>
  respondOk 0 st'

/-- `GET_BYTE index` (R121): a pure read of one byte. -/
def Store.getByte {c : Config} (index : Int) (st : Store c) : Reply c :=
  checkByte index st fun i =>
  memRead i st fun b =>
  respondOk b st

/-- `SET_BYTE` in the host's machine (R120). -/
def execSetByte (index : Int) (value : Byte) (s : State) : Result := perform s (s.store.setByte index value)

/-- `GET_BYTE` in the host's machine (R121). -/
def execGetByte (index : Int) (s : State) : Result := perform s (s.store.getByte index)

end Sys2Proof.Machine
end

