-- ==== Sys2Proof/Machine/Dispatch.lean ====
section
/-! DEFINITION. One arm per command of the opcode map (R64, R74). -/

namespace Sys2Proof.Machine

def exec (i : Instr) (s : State) : Host.Outcome State Fault Refusal :=
  match i with
  | .getBit index => Sys2Proof.Machine.execGetBit index s
  | .setBit index => Sys2Proof.Machine.execSetBit index s
  | .clearBit index => Sys2Proof.Machine.execClearBit index s
  | .toggleBit index => Sys2Proof.Machine.execToggleBit index s
  | .setByte index value => Sys2Proof.Machine.execSetByte index value s
  | .getByte index => Sys2Proof.Machine.execGetByte index s

end Sys2Proof.Machine
end

