-- ==== Sys2Proof/Machine/Port.lean ====
section
/-! DEFINITION. The command port: the host's next move is taken from `pending` (R11, R49), a command word is decoded and
run or answered as illegal (R74, R89), a reset is applied (R170). -/

namespace Sys2Proof.Machine

/-- The host's next move and the state with it taken, if the host makes one (R48: in the order of presentation). -/
def takeMove (s : State) : Option (HostMove × State) :=
  match s.pending with
  | [] => none
  | m :: rest => some (m, { s with pending := rest })

/-- One presented command word (R74, R89): decode first; an illegal word gets its response (R143, R144). -/
def runCommand (w : CommandWord) (s : State) : Result :=
  match decode w with
  | .instr i => exec i s
  | .illegalOpcode _ => perform s (raiseIllegalCommand s.store)

/-- The next move of the host carried out. With no move the controller does nothing: only commands and reset change the
buffer (R31, R179; DEDUCED, log entry 3). -/
def runMove (s : State) : Result :=
  match takeMove s with
  | none => .next s
  | some (.reset, t) => .next (resetEvent t)
  | some (.command w, t) => runCommand w t

/-- `s` with the command of the table's bits `w` presented next. -/
def State.presentTableWord (s : State) (nbits w : Nat) : State :=
  { s with pending := .command (tableWord nbits w) :: s.pending }

end Sys2Proof.Machine
end

