-- ==== Sys2Proof/Machine/Step.lean ====
section
/-! DEFINITION. The step function (R11): the host's next move, carried out as one atomic step (R5, R44). -/

namespace Sys2Proof.Machine

/-- One step of the machine (R11, R179). -/
def step (s : State) : Host.Outcome State Fault Refusal := runMove s

/-- `s` with the command of the table's bits `w` presented next, so that the very next step runs it. The controller
fetches nothing (R23): the host presenting a command is what stands for the fetch (log entry 2). -/
def State.withFetchWord (s : State) (nbits w : Nat) : State := s.presentTableWord nbits w

end Sys2Proof.Machine
end

