-- ==== Sys2Proof/Machine/Adapter.lean ====
section
/-! DEFINITION. The host adapter of R72: how a call of the source's software interface (R12), with its unbounded integers,
becomes a command word, an error the adapter reports itself, or a refused call. It stands outside the controller; the step
does not use it. -/

namespace Sys2Proof.Machine

/-- The calls of the source (R12), and the read access of its section 6. `construct` is the reset event with the
parameter `N` (R12, R170) and no call of the adapter. -/
inductive Call where
  | getBit (index : Int)
  | setBit (index : Int)
  | clearBit (index : Int)
  | toggleBit (index : Int)
  | setByte (byteIndex value : Int)
  | readByte (byteIndex : Int)
deriving DecidableEq, Repr

/-- What the adapter makes of a call. -/
inductive Adapted where
  /-- A command word for the controller. -/
  | word (w : CommandWord)
  /-- The index does not fit the field: the adapter reports OutOfRange itself (R72(a)). -/
  | report (r : Response)
  /-- The value does not fit 8 bits: the call is refused (R72(b)). -/
  | refusedCall
deriving DecidableEq, Repr

/-- The command's word if its index fits the field, else the OutOfRange report with the index as given; never a truncated
index (R72(a)). -/
def adaptInstr (i : Instr) (s : State) : Adapted :=
  if IndexFits i.index then .word (encode i) else .report (Response.outOfRange i.unit i.index (s.boundOf i.unit))

/-- The adapter (R12, R72). A value outside `0 .. 255` is refused and never reduced modulo 256 (R72(b)); where the index
does not fit either, the call is still refused (DESIGN CHOICE, log entry 12). -/
def adapt (c : Call) (s : State) : Adapted :=
  match c with
  | .getBit i => adaptInstr (.getBit i) s
  | .setBit i => adaptInstr (.setBit i) s
  | .clearBit i => adaptInstr (.clearBit i) s
  | .toggleBit i => adaptInstr (.toggleBit i) s
  | .setByte i v => if 0 ≤ v ∧ v ≤ 255 then adaptInstr (.setByte i (BitVec.ofInt 8 v)) s else .refusedCall
  | .readByte i => adaptInstr (.getByte i) s

end Sys2Proof.Machine
end

