-- ==== Sys2Proof/Machine/Pseudo.lean ====
section
/-! DEFINITION. The pseudo-instructions of R71 as the moves they expand to; none has an encoding of its own. -/

namespace Sys2Proof.Machine

/-- `CONSTRUCT`: the reset event, which is no command word (R71, R170). -/
def pseudoConstruct : List HostMove := [.reset]

/-- `SET_BYTE k, b0`; `SET_BYTE k+1, b1`; … in ascending order. -/
def setBytesFrom : Nat → List Byte → List HostMove
  | _, [] => []
  | k, b :: bs => .command (encode (.setByte k b)) :: setBytesFrom (k + 1) bs

/-- `LOAD_IMAGE b0, b1, …`: `SET_BYTE 0, b0`; `SET_BYTE 1, b1`; … (R71, R124). -/
def pseudoLoadImage (bytes : List Byte) : List HostMove := setBytesFrom 0 bytes

/-- `DUMP`: `GET_BYTE 0`; …; `GET_BYTE N-1`; nothing when `N = 0` (R71). -/
def pseudoDump (n : Nat) : List HostMove := (List.range n).map fun (k : Nat) => .command (encode (.getByte (k : Int)))

end Sys2Proof.Machine
end

