-- ==== Sys2Proof/Machine/Controller.lean ====
section
/-! DEFINITION. The controller alone, without the host's side of the port: the function
`step : State x CommandWord -> State x ResponseWord` of R11, with `Store c` for its State. -/

namespace Sys2Proof.Machine

/-- One decoded command (R74). -/
def Store.run {c : Config} (i : Instr) (st : Store c) : Reply c :=
  match i with
  | .getBit index => st.getBit index
  | .setBit index => st.setBit index
  | .clearBit index => st.clearBit index
  | .toggleBit index => st.toggleBit index
  | .setByte index value => st.setByte index value
  | .getByte index => st.getByte index

/-- One command word (R11, R74, R89). -/
def Store.step {c : Config} (w : CommandWord) (st : Store c) : Reply c :=
  match decode w with
  | .instr i => st.run i
  | .illegalOpcode _ => raiseIllegalCommand st

end Sys2Proof.Machine
end

