-- ==== Sys2Proof/Safety.lean ====
section
/-! DEFINITION. What statements are phrased in: runs that never stop, states of the right form, the latest response, and
the order-preserving merges of two requesters' commands (D26). -/

namespace Sys2Proof.Machine

/-- `k` steps from `s` reach `t`, with no fault and no refusal on the way. -/
def Reaches : Nat → State → State → Prop
  | 0, s, t => s = t
  | k + 1, s, t => ∃ u, step s = .next u ∧ Reaches k u t

/-- A run of any length from `s` never stops (R55, R146). -/
def NeverStops (s : State) : Prop := ∀ k, ∃ t, Reaches k s t

/-- A response the controller of configuration `c` may produce (R27, R68, R141): `OK`, `ILLEGAL_COMMAND`, or
`OUT_OF_RANGE` with a 64-bit index outside the valid range of its unit and that unit's bound. -/
def LegalResponse (c : Config) (r : Response) : Prop :=
  (r.status = 0x00 ∧ r.unit = 0 ∧ r.errIndex = 0 ∧ r.errBound = 0) ∨
  (r.status = 0x01 ∧ r.rdata = 0 ∧ IndexFits r.errIndex ∧ (r.errIndex < 0 ∨ r.errBound ≤ r.errIndex) ∧
    ((r.unit = 0x00 ∧ r.errBound = 8 * (c.byteCapacity.val : Int)) ∨
      (r.unit = 0x01 ∧ r.errBound = (c.byteCapacity.val : Int)))) ∨
  (r.status = 0x02 ∧ r.rdata = 0 ∧ r.unit = 0 ∧ r.errIndex = 0 ∧ r.errBound = 0)

/-- The buffer is in canonical form and holds no byte at or above `N` (R20, R21; log entry 7); the type `Store` carries it. -/
def State.BufferWf (s : State) : Prop := s.buffer.wf s.byteCapacity

/-- Every response delivered so far is one the controller may produce (R27). -/
def State.ResponsesLegal (s : State) : Prop := ∀ r ∈ s.responses, LegalResponse s.cfg r

/-- The response a command just delivered, where it delivered one. -/
def lastResponse : Result → Option Response
  | .next t => t.responses.getLast?
  | .fault _ => none
  | .refused _ => none

/-- The buffer an outcome leaves, where there is a next state. -/
def bufferAfter : Result → Option Memory
  | .next t => some t.buffer
  | .fault _ => none
  | .refused _ => none

/-- The state with its index in range for the command (R141). -/
def IndexInRange (i : Instr) (s : State) : Prop := 0 ≤ i.index ∧ i.index < (s.boundOf i.unit : Int)

/-- A command changes nothing but the buffer and the responses. -/
def OnlyBufferAndResponses (s t : State) : Prop :=
  t.cfg = s.cfg ∧ t.lifecycle = s.lifecycle ∧ t.pending = s.pending

/-- The number of the byte a command addresses when its index is in range (R43). -/
def byteNumberOf (i : Instr) : Nat :=
  match i.unit with
  | .bit => i.index.toNat / 8
  | .byte => i.index.toNat

/-- The store seen as an array of bits (R29): the array after a command on the array `bits`, at bit index `j`. -/
def bitArrayAfter (i : Instr) (bits : Nat → Byte) (j : Nat) : Byte :=
  match i with
  | .getBit _ => bits j
  | .setBit k => if (j : Int) = k then 1 else bits j
  | .clearBit k => if (j : Int) = k then 0 else bits j
  | .toggleBit k => if (j : Int) = k then 1 - bits j else bits j
  | .setByte k v => if ((j / 8 : Nat) : Int) = k then BitVec.ofNat 8 (v.toNat / 2 ^ (7 - j % 8) % 2) else bits j
  | .getByte _ => bits j

/-- What requester `who` contributes to a list in which every entry carries the requester it came from, in the order of the
list. Such a list is an order-preserving merge of two requesters' lists, and every merge of two lists is one (D26: what an
arbiter may present). -/
def streamOf {α : Type} (who : Bool) (zs : List (Bool × α)) : List α := (zs.filter fun z => z.1 == who).map fun z => z.2

/-- `s` with the commands `is` presented, and nothing else. -/
def presentAll (s : State) (is : List Instr) : State := { s with pending := is.map fun i => .command (encode i) }

end Sys2Proof.Machine
end

