-- ==== Sys2Proof/Certificates/Slice0/Obligations.lean ====
section
/-! DEFINITION. The statements for the provers. Responses are written as their five fields
⟨status, rdata, unit, err_index, err_bound⟩ (R67). `Store c` is the controller's state (R20). `N` is `s.cfg.byteCapacity.val`. -/

open Sys2Proof Sys2Proof.Machine

/-! ## The controller's state and its one function -/

/-- R20: a controller's state is an array of `N` bytes and nothing else: two are equal exactly when they agree at every byte
address, and every array of `N` bytes is one. -/
def Obligations.StoreIsTheArrayOfItsBytes : Prop :=
  ∀ c : Config,
    (∀ st st' : Store c, st = st' ↔ ∀ k < c.byteCapacity.val, st.byteAt k = st'.byteAt k) ∧
    (∀ f : Nat → Byte, ∃ st : Store c, ∀ k < c.byteCapacity.val, st.byteAt k = f k)

/-- R11: the controller is one total function from its state and a command word to its state and a response, and a step of
the host's machine with a command pending is that function, with the word taken and the response handed over. -/
def Obligations.StepIsTheControllerFunction : Prop :=
  (∀ (c : Config) (st : Store c) (w : CommandWord), ∃ st' r, st.step w = .done st' r) ∧
  (∀ (s : State) (w : CommandWord) (rest : List HostMove), s.lifecycle = .ready → s.pending = .command w :: rest →
    ∃ st' r, s.store.step w = .done st' r ∧
      step s = .next { s with store := st', pending := rest, responses := s.responses ++ [r] })

/-! ## Reset and the first reset -/

/-- R32: after reset every byte reads 0x00, whatever the capacity, so every bit index reads 0. -/
def Obligations.ResetStateReadsZero : Prop :=
  ∀ c : Config, (∀ k, (State.resetOf c).byteAt k = 0x00) ∧ (∀ i, (State.resetOf c).bitAt i = 0)

/-- R170, R171: the reset event, from any state (also one before its first reset), zeroes the buffer, keeps the capacity
and gives no response; every in-range GET_BIT and GET_BYTE right after it returns 0. That the responses delivered before
stay in the host's record is the model's choice (log entry 6, DESIGN CHOICE). -/
def Obligations.ResetEventZeroesBuffer : Prop :=
  ∀ (s : State) (rest : List HostMove), s.pending = .reset :: rest →
    ∃ t, step s = .next t ∧ t.cfg = s.cfg ∧ t.lifecycle = .ready ∧ t.pending = rest ∧ t.responses = s.responses ∧
      (∀ k, t.byteAt k = 0x00) ∧
      (∀ i : Nat, i < 8 * s.cfg.byteCapacity.val → lastResponse (exec (.getBit i) t) = some ⟨0x00, 0, 0, 0, 0⟩) ∧
      (∀ k : Nat, k < s.cfg.byteCapacity.val → lastResponse (exec (.getByte k) t) = some ⟨0x00, 0, 0, 0, 0⟩)

/-- R172: a command presented before the first reset has no meaning, legal or illegal, whatever the buffer holds. -/
def Obligations.CommandBeforeFirstResetRefused : Prop :=
  ∀ (s : State), s.lifecycle = .beforeReset →
    (∀ (w : CommandWord) (rest : List HostMove), s.pending = .command w :: rest →
      step s = .refused .beforeFirstReset) ∧
    (∀ i : Instr, exec i s = .refused .beforeFirstReset)

/-! ## Encoding and decoding -/

/-- R61 to R65, R74: the decoder over plain arithmetic on the 80-bit number. -/
def Obligations.DecoderFollowsOpcodeMap : Prop :=
  ∀ w : CommandWord,
    let op : Nat := w.toNat / 2 ^ 72
    let data : Nat := w.toNat / 2 ^ 64 % 2 ^ 8
    let raw : Nat := w.toNat % 2 ^ 64
    let index : Int := if raw < 2 ^ 63 then (raw : Int) else (raw : Int) - 2 ^ 64
    decode w =
      if op = 0x01 then .instr (.getBit index)
      else if op = 0x02 then .instr (.setBit index)
      else if op = 0x03 then .instr (.clearBit index)
      else if op = 0x04 then .instr (.toggleBit index)
      else if op = 0x05 then .instr (.setByte index (BitVec.ofNat 8 data))
      else if op = 0x06 then .instr (.getByte index)
      else .illegalOpcode (BitVec.ofNat 8 op)

/-- R74: encoding then decoding reproduces every operand of every well-formed command. -/
def Obligations.DecodeEncodeRoundTrip : Prop :=
  ∀ i : Instr, i.WellFormed → decode (encode i) = .instr i

/-- R74: decoding then encoding reproduces a legal word, with the `data` field of a command that ignores it put to 0. -/
def Obligations.EncodeDecodeClearsIgnoredData : Prop :=
  ∀ (w : CommandWord) (i : Instr), decode w = .instr i →
    i.WellFormed ∧
    (w.toNat / 2 ^ 72 = 0x05 → encode i = w) ∧
    (w.toNat / 2 ^ 72 ≠ 0x05 → (encode i).toNat = w.toNat / 2 ^ 72 * 2 ^ 72 + w.toNat % 2 ^ 64)

/-- R63: the `data` field of a word that is no SET_BYTE changes nothing about what the word decodes to. -/
def Obligations.IgnoredDataDoesNotMatter : Prop :=
  ∀ (op d d' : BitVec 8) (index : BitVec 64), op ≠ 0x05 →
    decode (packCommand op d index) = decode (packCommand op d' index)

/-- R64, R73: words written out in the spec, digit by digit, decode to the commands they stand for. -/
def Obligations.WrittenWordsDecode : Prop :=
  decode 0x0100000000000000000C = .instr (.getBit 12) ∧
  decode 0x0200FFFFFFFFFFFFFFFF = .instr (.setBit (-1)) ∧
  decode 0x03000000000000000008 = .instr (.clearBit 8) ∧
  decode 0x04007FFFFFFFFFFFFFFF = .instr (.toggleBit 9223372036854775807) ∧
  decode 0x05880000000000000001 = .instr (.setByte 1 0b10001000) ∧
  decode 0x06EE0000000000000001 = .instr (.getByte 1) ∧
  decode 0x07FF0000000000000003 = .illegalOpcode 0x07

/-! ## The step -/

/-- R74, R89: a presented word that decodes to a command is run as that command, with the host's move taken. -/
def Obligations.StepRunsDecodedCommand : Prop :=
  ∀ (s : State) (w : CommandWord) (rest : List HostMove) (i : Instr),
    s.pending = .command w :: rest → decode w = .instr i → step s = exec i { s with pending := rest }

/-- R65, R143: IllegalCommand is the answer when, and only when, the opcode is not one of 0x01 .. 0x06; the other fields are
not examined and nothing but the response changes. -/
def Obligations.IllegalCommandExactlyWhenOpcodeUnknown : Prop :=
  ∀ (s : State) (w : CommandWord) (rest : List HostMove),
    s.lifecycle = .ready → s.pending = .command w :: rest →
    if 0x01 ≤ w.toNat / 2 ^ 72 ∧ w.toNat / 2 ^ 72 ≤ 0x06 then
      ∃ t r, step s = .next t ∧ t.responses = s.responses ++ [r] ∧ r.status ≠ 0x02
    else step s = .next { s with pending := rest, responses := s.responses ++ [⟨0x02, 0, 0, 0, 0⟩] }

/-- R67: every presented word, legal or not, gets exactly one response. -/
def Obligations.EveryCommandGetsOneResponse : Prop :=
  ∀ (s : State) (w : CommandWord) (rest : List HostMove),
    s.lifecycle = .ready → s.pending = .command w :: rest →
    ∃ t r, step s = .next t ∧ t.cfg = s.cfg ∧ t.lifecycle = .ready ∧ t.pending = rest ∧
      t.responses = s.responses ++ [r]

/-- The model's choice (log entry 3): where the host makes no move, the controller does nothing. -/
def Obligations.NoMoveNoChange : Prop :=
  ∀ s : State, s.pending = [] → step s = .next s

/-! ## The commands -/

/-- R100: GET_BIT answers the addressed bit, 0 or 1, and changes nothing; an index out of range answers OutOfRange. -/
def Obligations.GetBitMeaning : Prop :=
  (∀ (s : State) (i : Nat), s.lifecycle = .ready → i < 8 * s.cfg.byteCapacity.val →
    exec (.getBit i) s = .next { s with responses := s.responses ++
      [⟨0x00, BitVec.ofNat 8 ((s.byteAt (i / 8)).toNat / 2 ^ (7 - i % 8) % 2), 0, 0, 0⟩] }) ∧
  (∀ (s : State) (index : Int), s.lifecycle = .ready → (index < 0 ∨ 8 * (s.cfg.byteCapacity.val : Int) ≤ index) →
    exec (.getBit index) s = .next { s with responses := s.responses ++
      [⟨0x01, 0, 0x00, index, 8 * (s.cfg.byteCapacity.val : Int)⟩] }) ∧
  (∀ w : CommandWord, w.toNat / 2 ^ 72 = 0x01 → decode w = .instr (.getBit (BitVec.ofNat 64 w.toNat).toInt))

/-- R101: SET_BIT ORs the mask into the addressed byte, changes no other byte, and answers OK 0; an index out of range
answers OutOfRange and changes nothing else. -/
def Obligations.SetBitMeaning : Prop :=
  (∀ (s : State) (i : Nat), s.lifecycle = .ready → i < 8 * s.cfg.byteCapacity.val →
    ∃ t, exec (.setBit i) s = .next t ∧ OnlyBufferAndResponses s t ∧
      t.responses = s.responses ++ [⟨0x00, 0, 0, 0, 0⟩] ∧
      ∀ a, t.byteAt a = if a = i / 8 then s.byteAt (i / 8) ||| (0x80#8 >>> (i % 8)) else s.byteAt a) ∧
  (∀ (s : State) (index : Int), s.lifecycle = .ready → (index < 0 ∨ 8 * (s.cfg.byteCapacity.val : Int) ≤ index) →
    exec (.setBit index) s = .next { s with responses := s.responses ++
      [⟨0x01, 0, 0x00, index, 8 * (s.cfg.byteCapacity.val : Int)⟩] }) ∧
  (∀ w : CommandWord, w.toNat / 2 ^ 72 = 0x02 → decode w = .instr (.setBit (BitVec.ofNat 64 w.toNat).toInt))

/-- R102: CLEAR_BIT ANDs the 8-bit complement of the mask, 255 minus the mask, changes no other byte, and answers OK 0. -/
def Obligations.ClearBitMeaning : Prop :=
  (∀ (s : State) (i : Nat), s.lifecycle = .ready → i < 8 * s.cfg.byteCapacity.val →
    ∃ t, exec (.clearBit i) s = .next t ∧ OnlyBufferAndResponses s t ∧
      t.responses = s.responses ++ [⟨0x00, 0, 0, 0, 0⟩] ∧
      ∀ a, t.byteAt a = if a = i / 8 then s.byteAt (i / 8) &&& (255#8 - 0x80#8 >>> (i % 8)) else s.byteAt a) ∧
  (∀ (s : State) (index : Int), s.lifecycle = .ready → (index < 0 ∨ 8 * (s.cfg.byteCapacity.val : Int) ≤ index) →
    exec (.clearBit index) s = .next { s with responses := s.responses ++
      [⟨0x01, 0, 0x00, index, 8 * (s.cfg.byteCapacity.val : Int)⟩] }) ∧
  (∀ w : CommandWord, w.toNat / 2 ^ 72 = 0x03 → decode w = .instr (.clearBit (BitVec.ofNat 64 w.toNat).toInt))

/-- R103: TOGGLE_BIT XORs the mask, changes no other byte, and answers the value of the bit after the flip. -/
def Obligations.ToggleBitMeaning : Prop :=
  (∀ (s : State) (i : Nat), s.lifecycle = .ready → i < 8 * s.cfg.byteCapacity.val →
    ∃ t, exec (.toggleBit i) s = .next t ∧ OnlyBufferAndResponses s t ∧
      t.responses = s.responses ++
        [⟨0x00, BitVec.ofNat 8 (1 - (s.byteAt (i / 8)).toNat / 2 ^ (7 - i % 8) % 2), 0, 0, 0⟩] ∧
      ∀ a, t.byteAt a = if a = i / 8 then s.byteAt (i / 8) ^^^ (0x80#8 >>> (i % 8)) else s.byteAt a) ∧
  (∀ (s : State) (index : Int), s.lifecycle = .ready → (index < 0 ∨ 8 * (s.cfg.byteCapacity.val : Int) ≤ index) →
    exec (.toggleBit index) s = .next { s with responses := s.responses ++
      [⟨0x01, 0, 0x00, index, 8 * (s.cfg.byteCapacity.val : Int)⟩] }) ∧
  (∀ w : CommandWord, w.toNat / 2 ^ 72 = 0x04 → decode w = .instr (.toggleBit (BitVec.ofNat 64 w.toNat).toInt))

/-- R120: SET_BYTE replaces the whole byte at the byte index, changes no other byte, and answers OK 0; its index is
checked against `N`, not `8N`. -/
def Obligations.SetByteMeaning : Prop :=
  (∀ (s : State) (k : Nat) (v : Byte), s.lifecycle = .ready → k < s.cfg.byteCapacity.val →
    ∃ t, exec (.setByte k v) s = .next t ∧ OnlyBufferAndResponses s t ∧
      t.responses = s.responses ++ [⟨0x00, 0, 0, 0, 0⟩] ∧
      ∀ a, t.byteAt a = if a = k then v else s.byteAt a) ∧
  (∀ (s : State) (index : Int) (v : Byte), s.lifecycle = .ready →
    (index < 0 ∨ (s.cfg.byteCapacity.val : Int) ≤ index) →
    exec (.setByte index v) s = .next { s with responses := s.responses ++
      [⟨0x01, 0, 0x01, index, (s.cfg.byteCapacity.val : Int)⟩] }) ∧
  (∀ w : CommandWord, w.toNat / 2 ^ 72 = 0x05 →
    decode w = .instr (.setByte (BitVec.ofNat 64 w.toNat).toInt (BitVec.ofNat 8 (w.toNat / 2 ^ 64))))

/-- R121: GET_BYTE answers the byte at the byte index and changes nothing; its index is checked against `N`. -/
def Obligations.GetByteMeaning : Prop :=
  (∀ (s : State) (k : Nat), s.lifecycle = .ready → k < s.cfg.byteCapacity.val →
    exec (.getByte k) s = .next { s with responses := s.responses ++ [⟨0x00, s.byteAt k, 0, 0, 0⟩] }) ∧
  (∀ (s : State) (index : Int), s.lifecycle = .ready → (index < 0 ∨ (s.cfg.byteCapacity.val : Int) ≤ index) →
    exec (.getByte index) s = .next { s with responses := s.responses ++
      [⟨0x01, 0, 0x01, index, (s.cfg.byteCapacity.val : Int)⟩] }) ∧
  (∀ w : CommandWord, w.toNat / 2 ^ 72 = 0x06 → decode w = .instr (.getByte (BitVec.ofNat 64 w.toNat).toInt))

/-! ## The error contract -/

/-- R108: each of the four bit opcodes with an index out of range answers OUT_OF_RANGE(bit, i, 8N) and leaves everything
else as it was. -/
def Obligations.BitCommandFailureLeavesStoreIntact : Prop :=
  ∀ (s : State) (w : CommandWord) (rest : List HostMove),
    s.lifecycle = .ready → s.pending = .command w :: rest →
    0x01 ≤ w.toNat / 2 ^ 72 → w.toNat / 2 ^ 72 ≤ 0x04 →
    (indexField w < 0 ∨ 8 * (s.cfg.byteCapacity.val : Int) ≤ indexField w) →
    step s = .next { s with pending := rest, responses := s.responses ++
      [⟨0x01, 0, 0x00, indexField w, 8 * (s.cfg.byteCapacity.val : Int)⟩] }

/-- R141, R142, R148: an index out of range for the command's unit gives OUT_OF_RANGE with the index as given and that
unit's bound, and nothing else changes; an index in range gives OK. -/
def Obligations.RangeDecidesOutcome : Prop :=
  ∀ (s : State) (i : Instr), s.lifecycle = .ready →
    let bound : Int := if i.unit = .bit then 8 * (s.cfg.byteCapacity.val : Int) else (s.cfg.byteCapacity.val : Int)
    let code : Byte := if i.unit = .bit then 0x00 else 0x01
    (if i.index < 0 ∨ bound ≤ i.index then
      exec i s = .next { s with responses := s.responses ++ [⟨0x01, 0, code, i.index, bound⟩] }
    else ∃ t v, exec i s = .next t ∧ t.responses = s.responses ++ [⟨0x00, v, 0, 0, 0⟩])

/-- R146: after a failed command, out of range or illegal, the next one answers and acts exactly as if the failed one had
never been presented. -/
def Obligations.ErrorsAreNotSticky : Prop :=
  (∀ (s : State) (i j : Instr), s.lifecycle = .ready → ¬ IndexInRange i s →
    ∃ t, exec i s = .next t ∧ (lastResponse (exec j s)).isSome ∧
      lastResponse (exec j t) = lastResponse (exec j s) ∧ bufferAfter (exec j t) = bufferAfter (exec j s)) ∧
  (∀ (s : State) (w : CommandWord) (op : BitVec 8) (rest : List HostMove) (j : Instr), s.lifecycle = .ready →
    s.pending = .command w :: rest → decode w = .illegalOpcode op →
    ∃ t, step s = .next t ∧ (lastResponse (exec j s)).isSome ∧
      lastResponse (exec j t) = lastResponse (exec j s) ∧ bufferAfter (exec j t) = bufferAfter (exec j s))

/-- R24, R30: no command's effect on the buffer and no response depends on what was answered before or is still to come. -/
def Obligations.HistoryDoesNotMatter : Prop :=
  ∀ (s : State) (j : Instr) (p : List HostMove) (r : List Response),
    lastResponse (exec j { s with pending := p, responses := r }) = lastResponse (exec j { s with responses := [] }) ∧
    bufferAfter (exec j { s with pending := p, responses := r }) = bufferAfter (exec j s)

/-- R88: with capacity 0 every command fails with bound 0, and the state stays the empty buffer. -/
def Obligations.ZeroCapacityAnswersEveryCommand : Prop :=
  ∀ (s : State), s.lifecycle = .ready → s.cfg.byteCapacity.val = 0 →
    (∀ i : Instr, exec i s = .next { s with responses := s.responses ++
      [⟨0x01, 0, (if i.unit = .bit then 0x00 else 0x01), i.index, 0⟩] }) ∧
    (∀ (w : CommandWord) (rest : List HostMove), s.pending = .command w :: rest →
      ∃ t r, step s = .next t ∧ t.buffer = s.buffer ∧ t.responses = s.responses ++ [r] ∧
        ((r.status = 0x01 ∧ r.errBound = 0) ∨ r.status = 0x02)) ∧
    s.buffer = []

/-- R72: the adapter makes a word of every command whose index fits the field, and that word decodes to exactly that
command; an index that does not fit its field is out of range for both units and is reported; a value outside 0 .. 255 is
refused and a value inside is passed on exactly. -/
def Obligations.AdapterNeverTruncates : Prop :=
  ∀ (s : State),
    (∀ (i : Instr) (w : CommandWord), adaptInstr i s = .word w → decode w = .instr i) ∧
    (∀ i : Instr, IndexFits i.index → adaptInstr i s = .word (encode i)) ∧
    (∀ i : Instr, ¬ IndexFits i.index →
      adaptInstr i s = .report ⟨0x01, 0, (if i.unit = .bit then 0x00 else 0x01), i.index,
        (if i.unit = .bit then 8 * (s.cfg.byteCapacity.val : Int) else (s.cfg.byteCapacity.val : Int))⟩) ∧
    (∀ k : Int, ¬ IndexFits k →
      k < 0 ∨ (8 * (s.cfg.byteCapacity.val : Int) ≤ k ∧ (s.cfg.byteCapacity.val : Int) ≤ k)) ∧
    (∀ k v : Int, IndexFits k → (v < 0 ∨ 255 < v) → adapt (.setByte k v) s = .refusedCall) ∧
    (∀ k v : Int, 0 ≤ v → v ≤ 255 → ∃ b : Byte, (b.toNat : Int) = v ∧
      adapt (.setByte k v) s = adaptInstr (.setByte k b) s) ∧
    (∀ k : Int, adapt (.getBit k) s = adaptInstr (.getBit k) s ∧ adapt (.setBit k) s = adaptInstr (.setBit k) s ∧
      adapt (.clearBit k) s = adaptInstr (.clearBit k) s ∧ adapt (.toggleBit k) s = adaptInstr (.toggleBit k) s ∧
      adapt (.readByte k) s = adaptInstr (.getByte k) s)

/-! ## Bit addressing -/

/-- R84: the table of bit positions, masks and their complements, for every index. -/
def Obligations.MaskTable : Prop :=
  ∀ i : Nat, ((locate i).bitPos, (locate i).mask, ~~~ (locate i).mask) =
    match i % 8 with
    | 0 => (7, 0x80, 0x7F)
    | 1 => (6, 0x40, 0xBF)
    | 2 => (5, 0x20, 0xDF)
    | 3 => (4, 0x10, 0xEF)
    | 4 => (3, 0x08, 0xF7)
    | 5 => (2, 0x04, 0xFB)
    | 6 => (1, 0x02, 0xFD)
    | _ => (0, 0x01, 0xFE)

/-- R83: the hardware form of Locate agrees with the division on every index that is not negative. -/
def Obligations.HardwareLocateAgrees : Prop :=
  ∀ v : BitVec 64, 0 ≤ v.toInt → locateHardware v = locate v.toInt.toNat

/-- R85: the shift form and the mask form of reading a bit agree. -/
def Obligations.ReadBitFormsAgree : Prop :=
  ∀ (b : Byte) (i : Nat),
    readBit b (locate i).bitPos = if b &&& (locate i).mask ≠ 0 then 1 else 0

/-- R86: splitting an index is a bijection onto (byte, offset) pairs, and two indices have different bytes or disjoint
masks. -/
def Obligations.LocateIsOneToOne : Prop :=
  ∀ n : Nat,
    (∀ i < 8 * n, (locate i).bytePos < n ∧ 8 * (locate i).bytePos + (7 - (locate i).bitPos) = i) ∧
    (∀ k < n, ∀ o < 8, 8 * k + o < 8 * n ∧ (locate (8 * k + o)).bytePos = k ∧ 7 - (locate (8 * k + o)).bitPos = o) ∧
    (∀ i j, i ≠ j → (locate i).bytePos ≠ (locate j).bytePos ∨ (locate i).mask &&& (locate j).mask = 0)

/-- R29: the bit view and the byte view are one storage: bit index 8k + b is the bit with mask 0x80 >> b of byte k. -/
def Obligations.BitViewOfBytes : Prop :=
  ∀ (s : State) (k b : Nat), b < 8 →
    s.bitAt (8 * k + b) = (if s.byteAt k &&& (0x80#8 >>> b) = 0 then 0 else 1)

/-! ## The laws of the commands -/

/-- R104: the three writing bit commands change what no other in-range GET_BIT reads and no other byte; GET_BIT changes
nothing. -/
def Obligations.BitWritesAreLocal : Prop :=
  ∀ (s : State) (i j : Nat), s.lifecycle = .ready →
    i < 8 * s.cfg.byteCapacity.val → j < 8 * s.cfg.byteCapacity.val →
    (j ≠ i → ∀ c ∈ [Instr.setBit i, Instr.clearBit i, Instr.toggleBit i],
      ∃ t v, exec c s = .next t ∧ lastResponse (exec (.getBit j) s) = some ⟨0x00, v, 0, 0, 0⟩ ∧
        lastResponse (exec (.getBit j) t) = some ⟨0x00, v, 0, 0, 0⟩ ∧ ∀ a, a ≠ i / 8 → t.byteAt a = s.byteAt a) ∧
    ∃ t, exec (.getBit i) s = .next t ∧ t.buffer = s.buffer

/-- R105: right after SET_BIT the bit reads 1, right after CLEAR_BIT 0, right after TOGGLE_BIT what it answered. -/
def Obligations.BitWriteThenRead : Prop :=
  ∀ (s : State) (i : Nat), s.lifecycle = .ready → i < 8 * s.cfg.byteCapacity.val →
    (∃ t, exec (.setBit i) s = .next t ∧ lastResponse (exec (.getBit i) t) = some ⟨0x00, 1, 0, 0, 0⟩) ∧
    (∃ t, exec (.clearBit i) s = .next t ∧ lastResponse (exec (.getBit i) t) = some ⟨0x00, 0, 0, 0, 0⟩) ∧
    (∃ t v, exec (.toggleBit i) s = .next t ∧ t.responses = s.responses ++ [⟨0x00, v, 0, 0, 0⟩] ∧
      lastResponse (exec (.getBit i) t) = some ⟨0x00, v, 0, 0, 0⟩)

/-- R106: two toggles restore the store; the first answers the complement of the bit, the second the bit. -/
def Obligations.ToggleIsInvolution : Prop :=
  ∀ (s : State) (i : Nat), s.lifecycle = .ready → i < 8 * s.cfg.byteCapacity.val →
    ∃ t u b, exec (.toggleBit i) s = .next t ∧ exec (.toggleBit i) t = .next u ∧
      lastResponse (exec (.getBit i) s) = some ⟨0x00, b, 0, 0, 0⟩ ∧
      u = { s with responses := s.responses ++ [⟨0x00, 1 - b, 0, 0, 0⟩, ⟨0x00, b, 0, 0, 0⟩] }

/-- R107: setting or clearing twice is doing it once; of a set and a clear the later one decides. -/
def Obligations.SetAndClearAreIdempotent : Prop :=
  ∀ (s : State) (i : Nat), s.lifecycle = .ready → i < 8 * s.cfg.byteCapacity.val →
    ∃ t u, exec (.setBit i) s = .next t ∧ exec (.clearBit i) s = .next u ∧
      bufferAfter (exec (.setBit i) t) = some t.buffer ∧ bufferAfter (exec (.clearBit i) u) = some u.buffer ∧
      (∃ t', exec (.clearBit i) t = .next t' ∧ t'.buffer = u.buffer ∧
        lastResponse (exec (.getBit i) t') = some ⟨0x00, 0, 0, 0, 0⟩) ∧
      (∃ u', exec (.setBit i) u = .next u' ∧ u'.buffer = t.buffer ∧
        lastResponse (exec (.getBit i) u') = some ⟨0x00, 1, 0, 0, 0⟩)

/-- R122: a byte written is read bit by bit, most significant bit first. -/
def Obligations.ByteWriteSeenThroughBits : Prop :=
  ∀ (s : State) (k : Nat) (v : Byte), s.lifecycle = .ready → k < s.cfg.byteCapacity.val →
    ∃ t, exec (.setByte k v) s = .next t ∧ ∀ b < 8,
      lastResponse (exec (.getBit ((8 * k + b : Nat) : Int)) t) =
        some ⟨0x00, BitVec.ofNat 8 (v.toNat / 2 ^ (7 - b) % 2), 0, 0, 0⟩

/-- R123: GET_BYTE is the sum of what its eight GET_BIT return, weighted MSB-first; it returns what SET_BYTE wrote; and
SET_BYTE changes what is read of no other byte. -/
def Obligations.BitsSeenThroughByteRead : Prop :=
  ∀ (s : State) (k : Nat), s.lifecycle = .ready → k < s.cfg.byteCapacity.val →
    (∃ (g : Nat → Nat) (v : Byte),
      (∀ b < 8, lastResponse (exec (.getBit ((8 * k + b : Nat) : Int)) s) =
        some ⟨0x00, BitVec.ofNat 8 (g b), 0, 0, 0⟩ ∧ g b ≤ 1) ∧
      lastResponse (exec (.getByte k) s) = some ⟨0x00, v, 0, 0, 0⟩ ∧
      v.toNat = ∑ b ∈ Finset.range 8, g b * 2 ^ (7 - b)) ∧
    (∀ v : Byte, ∃ t, exec (.setByte k v) s = .next t ∧ lastResponse (exec (.getByte k) t) = some ⟨0x00, v, 0, 0, 0⟩ ∧
      ∀ j < s.cfg.byteCapacity.val, j ≠ k →
        lastResponse (exec (.getByte j) t) = lastResponse (exec (.getByte j) s) ∧
        (lastResponse (exec (.getByte j) s)).isSome ∧
        ∀ b < 8, lastResponse (exec (.getBit ((8 * j + b : Nat) : Int)) t) =
          lastResponse (exec (.getBit ((8 * j + b : Nat) : Int)) s))

/-- R48(c): two in-range commands on different bytes leave one buffer and answer alike in either order. -/
def Obligations.DifferentBytesCommute : Prop :=
  ∀ (s : State) (i j : Instr), s.lifecycle = .ready → IndexInRange i s → IndexInRange j s →
    byteNumberOf i ≠ byteNumberOf j →
    ∃ t u t' u', exec i s = .next t ∧ exec j t = .next u ∧ exec j s = .next t' ∧ exec i t' = .next u' ∧
      u.buffer = u'.buffer ∧ t.responses.getLast? = u'.responses.getLast? ∧
      u.responses.getLast? = t'.responses.getLast?

/-- R29, R100 to R104, R120: seen as an array of 8N bits, the store after every command is what that command does to an
array of bits. -/
def Obligations.CommandsRefineBitArray : Prop :=
  ∀ (s : State) (i : Instr), s.lifecycle = .ready →
    ∃ t, exec i s = .next t ∧ OnlyBufferAndResponses s t ∧
      ∀ j < 8 * s.cfg.byteCapacity.val, t.bitAt j = bitArrayAfter i s.bitAt j

/-! ## Responses as words -/

/-- R75, R67: the response word is the weighted sum of its five fields, the two integers modulo 2^64. -/
def Obligations.PackedResponseLayout : Prop :=
  (∀ r : Response, (r.pack.toNat : Int) =
    (r.status.toNat : Int) * 2 ^ 144 + (r.rdata.toNat : Int) * 2 ^ 136 + (r.unit.toNat : Int) * 2 ^ 128 +
      r.errIndex % 2 ^ 64 * 2 ^ 64 + r.errBound % 2 ^ 64) ∧
  Response.pack ⟨0x00, 1, 0, 0, 0⟩ = 0x00010000000000000000000000000000000000 ∧
  Response.pack ⟨0x01, 0, 0x00, 80, 80⟩ = 0x01000000000000000000500000000000000050 ∧
  Response.pack ⟨0x01, 0, 0x01, -1, 10⟩ = 0x010001FFFFFFFFFFFFFFFF000000000000000A ∧
  Response.pack ⟨0x02, 0, 0, 0, 0⟩ = 0x02000000000000000000000000000000000000

/-- R67, R75: a response the controller may produce is read back whole from its word. -/
def Obligations.ResponseWordRoundTrip : Prop :=
  ∀ (c : Config) (r : Response), LegalResponse c r → Response.unpack r.pack = r

/-! ## Invariants and whole runs -/

/-- R32, R33, R170, R171: right after reset the machine of configuration `c` is ready, no cell is listed, and its store is the
one array of `N` bytes that are all 0x00; the reset event, from any state, leaves exactly that machine but for the host's two
lists. That those lists are empty right after reset and the `N = 10` of `State.reset` are the model's choices (log entries 2
and 1). -/
def Obligations.ResetStateIsTheAllZeroBuffer : Prop :=
  (∀ c : Config, (State.resetOf c).cfg = c ∧ (State.resetOf c).lifecycle = .ready ∧ (State.resetOf c).buffer = [] ∧
    ∀ st : Store c, st = (State.resetOf c).store ↔ ∀ k < c.byteCapacity.val, st.byteAt k = 0x00) ∧
  State.reset = State.resetOf State.reset.cfg ∧
  ∀ (s : State) (rest : List HostMove), s.pending = .reset :: rest →
    ∃ t, step s = .next t ∧ { t with pending := [], responses := [] } = State.resetOf s.cfg

/-- Every step leaves a buffer of the right form, canonical, no byte at or above `N` (R21: the length never changes). The
type `Store` carries the form. -/
def Obligations.StepKeepsBufferWellFormed : Prop :=
  ∀ s t : State, step s = .next t → t.BufferWf ∧ t.buffer.wf s.byteCapacity

/-- Every step delivers only responses that R27, R68 and R141 allow. -/
def Obligations.StepKeepsResponsesLegal : Prop :=
  ∀ s t : State, s.ResponsesLegal → step s = .next t → t.ResponsesLegal

/-- No response stands before the first command. That the list is empty at reset is the model's choice (log entry 2). -/
def Obligations.ResetHasNoIllegalResponse : Prop :=
  (∀ c : Config, (State.resetOf c).ResponsesLegal) ∧ State.reset.ResponsesLegal

/-- R21: no command and no event changes the capacity, nor the length of the buffer. -/
def Obligations.CapacityNeverChanges : Prop :=
  ∀ s t : State, step s = .next t →
    t.cfg = s.cfg ∧ t.cfg.bitCapacity = s.cfg.byteCapacity.val * 8 ∧
    ∀ a, s.cfg.byteCapacity.val ≤ a → t.byteAt a = 0x00

/-- R10: every command establishes the precondition of its buffer accesses first, in every state. -/
def Obligations.NoAccessOutsideBuffer : Prop :=
  ∀ (s : State) (f : Fault), step s ≠ .fault f

/-- R55: from every reset state a step with a move of the host pending answers a next state that is ready again, with that
move made. -/
def Obligations.ReadyStepAnswersReady : Prop :=
  ∀ s : State, s.lifecycle = .ready → s.pending ≠ [] →
    ∃ t, step s = .next t ∧ t.lifecycle = .ready ∧ t.pending = s.pending.tail

/-- From every reset state a run of any length goes on, whatever the host presents; and a run that begins with the reset
event goes on from any state. While moves are pending this is R55; that the run goes on after the last of them, by steps
that change nothing, is the model's (log entry 3, DEDUCED). -/
def Obligations.ResetMachineNeverStops : Prop :=
  (∀ s : State, s.lifecycle = .ready → NeverStops s) ∧
  (∀ (s : State) (rest : List HostMove), s.pending = .reset :: rest → NeverStops s)

/-- R179: as many steps as the host has moves end the run, with one response for each command, the earlier responses
kept in front. That a reset inside the run keeps the list is the model's choice (log entry 6). -/
def Obligations.RunAnswersEveryCommandOnce : Prop :=
  ∀ s : State, s.lifecycle = .ready →
    ∃ t rs, Reaches s.pending.length s t ∧ t.pending = [] ∧ t.responses = s.responses ++ rs ∧
      rs.length = (s.pending.filter (fun m => m != .reset)).length

/-- R124, R71: reset followed by LOAD_IMAGE leaves the image in the first bytes and 0x00 in the others. That the reset
keeps the responses delivered before it is the model's choice (log entry 6, DESIGN CHOICE). -/
def Obligations.LoadImageLoadsTheImage : Prop :=
  ∀ (s : State) (bytes : List Byte) (rest : List HostMove),
    bytes.length ≤ s.cfg.byteCapacity.val →
    s.pending = pseudoConstruct ++ pseudoLoadImage bytes ++ rest →
    ∃ t, Reaches (bytes.length + 1) s t ∧ t.pending = rest ∧
      t.responses = s.responses ++ List.replicate bytes.length ⟨0x00, 0, 0, 0, 0⟩ ∧
      (∀ (k : Nat) (h : k < bytes.length), t.byteAt k = bytes[k]) ∧
      ∀ k, bytes.length ≤ k → t.byteAt k = 0x00

/-- R71: DUMP answers every byte of the buffer in ascending order and changes nothing else. -/
def Obligations.DumpAnswersTheWholeBuffer : Prop :=
  ∀ (s : State) (rest : List HostMove), s.lifecycle = .ready →
    s.pending = pseudoDump s.cfg.byteCapacity.val ++ rest →
    Reaches s.cfg.byteCapacity.val s { s with
      pending := rest
      responses := s.responses ++
        (List.range s.cfg.byteCapacity.val).map (fun k => ⟨0x00, s.byteAt k, 0, 0, 0⟩) }

/-- R49, R176: two requesters whose in-range commands share no byte. Under every order-preserving merge of their commands
each gets the responses it gets when it runs alone, and the buffer is the one that both leave when one runs after the
other. -/
def Obligations.MergesOfByteDisjointStreamsAgree : Prop :=
  ∀ (s : State) (zs : List (Bool × Instr)), s.lifecycle = .ready →
    (∀ z ∈ zs, z.2.WellFormed) →
    (∀ x ∈ streamOf true zs, ∀ y ∈ streamOf false zs,
      IndexInRange x s → IndexInRange y s → byteNumberOf x ≠ byteNumberOf y) →
    ∃ t rs, Reaches zs.length (presentAll s (zs.map fun z => z.2)) t ∧
      rs.length = zs.length ∧ t.responses = s.responses ++ rs ∧
      (∀ who, ∃ u, Reaches (streamOf who zs).length (presentAll s (streamOf who zs)) u ∧
        u.responses = s.responses ++ streamOf who ((zs.map fun z => z.1).zip rs)) ∧
      ∃ u, Reaches zs.length (presentAll s (streamOf true zs ++ streamOf false zs)) u ∧ t.buffer = u.buffer
end

