-- ==== Sys2Proof/Laws/Bits.lean ====
section
/-! SUPPORT. The bits of the masks and of a byte after OR, AND and XOR with a mask. -/

namespace Sys2Proof.Machine

/-- The addressed bit is 1 exactly when the byte's bit at that position is set (R85). -/
theorem readBit_eq (b : Byte) (p : Nat) : readBit b p = if b.getLsbD p then 1 else 0 := by
  apply BitVec.eq_of_getLsbD_eq
  intro i hi
  simp only [readBit, BitVec.getLsbD_and, BitVec.getLsbD_ushiftRight]
  rcases Nat.eq_zero_or_pos i with rfl | hp
  · by_cases h : b.getLsbD p <;> simp [h]
  · have h1 : (1 : BitVec 8).getLsbD i = false := by
      simp [BitVec.getLsbD_one]; omega
    have h0 : (if b.getLsbD p then (1 : BitVec 8) else 0).getLsbD i = false := by
      split <;> simp [BitVec.getLsbD_one]; omega
    rw [h0, show (1 : Byte).getLsbD i = false from h1, Bool.and_false]

/-- A mask has exactly its own bit set (R82). -/
theorem getLsbD_maskOf {p : Nat} (hp : p < 8) (k : Nat) : (maskOf p).getLsbD k = decide (k = p) := by
  rw [maskOf, BitVec.getLsbD_shiftLeft, Bool.eq_iff_iff]
  simp [BitVec.getLsbD_one]
  omega

/-- A bit position in a byte is below 8 (R82). -/
theorem bitPos_lt (i : Nat) : (locate i).bitPos < 8 := by simp only [locate]; omega

theorem locate_mask (i : Nat) : (locate i).mask = maskOf (locate i).bitPos := rfl

/-- Two indices of one byte with one bit position are one index (R86). -/
theorem locate_injective {i j : Nat} (hb : (locate i).bytePos = (locate j).bytePos)
    (hp : (locate i).bitPos = (locate j).bitPos) : i = j := by
  simp only [locate] at hb hp; omega

theorem readBit_or_mask {p q : Nat} (b : Byte) (hq : q < 8) :
    readBit (b ||| maskOf q) p = if p = q then 1 else readBit b p := by
  rw [readBit_eq, readBit_eq, BitVec.getLsbD_or, getLsbD_maskOf hq]
  by_cases h : p = q <;> simp [h]

theorem readBit_and_not_mask {p q : Nat} (b : Byte) (hp : p < 8) (hq : q < 8) :
    readBit (b &&& ~~~ maskOf q) p = if p = q then 0 else readBit b p := by
  rw [readBit_eq, readBit_eq, BitVec.getLsbD_and, BitVec.getLsbD_not, getLsbD_maskOf hq]
  by_cases h : p = q <;> simp [h, hp]

theorem readBit_xor_mask {p q : Nat} (b : Byte) (hq : q < 8) :
    readBit (b ^^^ maskOf q) p = if p = q then 1 - readBit b p else readBit b p := by
  rw [readBit_eq, readBit_eq, BitVec.getLsbD_xor, getLsbD_maskOf hq]
  by_cases h : p = q
  · subst h
    cases b.getLsbD p <;> simp
  · simp [h]

/-- Toggling with one mask twice restores the byte (R106). -/
theorem xor_mask_twice (b m : Byte) : b ^^^ m ^^^ m = b := by
  rw [BitVec.xor_assoc, BitVec.xor_self, BitVec.xor_zero]

end Sys2Proof.Machine
end

