-- ==== Sys2Proof/Laws/Decode.lean ====
section
/-! SUPPORT. The fields of a packed command word. -/

namespace Sys2Proof

@[simp] theorem opField_packCommand (op data : BitVec 8) (index : BitVec 64) :
    opField (packCommand op data index) = op := by
  apply BitVec.eq_of_getLsbD_eq
  intro i hi
  simp only [opField, packCommand, BitVec.getLsbD_extractLsb', BitVec.getLsbD_append]
  simp [hi, show ¬ 72 + i < 64 by omega, show ¬ 72 + i - 64 < 8 by omega, show 72 + i - 64 - 8 = i by omega]

@[simp] theorem dataField_packCommand (op data : BitVec 8) (index : BitVec 64) :
    dataField (packCommand op data index) = data := by
  apply BitVec.eq_of_getLsbD_eq
  intro i hi
  simp only [dataField, packCommand, BitVec.getLsbD_extractLsb', BitVec.getLsbD_append]
  simp [hi, show ¬ 64 + i < 64 by omega, show 64 + i - 64 = i by omega]

@[simp] theorem indexBits_packCommand (op data : BitVec 8) (index : BitVec 64) :
    indexBits (packCommand op data index) = index := by
  apply BitVec.eq_of_getLsbD_eq
  intro i hi
  simp only [indexBits, packCommand, BitVec.getLsbD_extractLsb', BitVec.getLsbD_append]
  simp [hi]

/-- A word is its three fields (R61). -/
theorem packCommand_fields (w : CommandWord) : packCommand (opField w) (dataField w) (indexBits w) = w := by
  apply BitVec.eq_of_getLsbD_eq
  intro i hi
  simp only [packCommand, opField, dataField, indexBits, BitVec.getLsbD_append, BitVec.getLsbD_extractLsb']
  by_cases h : i < 64
  · simp [h]
  · by_cases h' : i - 64 < 8
    · simp [h, h', show 64 + (i - 64) = i by omega]
    · simp [h, h', show i - 64 - 8 < 8 by omega, show 72 + (i - 64 - 8) = i by omega]

/-- The signed field gives back every integer that fits it (R62). -/
theorem toInt_ofInt_of_fits {k : Int} (h : IndexFits k) : (BitVec.ofInt 64 k).toInt = k := by
  rw [BitVec.toInt_ofInt]
  apply Int.bmod_eq_of_le <;> [have := h.1; have := h.2] <;> norm_num at * <;> omega

/-- The index field of a word is in the range of the field (R26). -/
theorem indexField_fits (w : CommandWord) : IndexFits (indexField w) :=
  ⟨BitVec.le_toInt (indexBits w), BitVec.toInt_lt (x := indexBits w)⟩

end Sys2Proof
end

