-- ==== Sys2Proof/Laws/Memory.lean ====
section
/-! SUPPORT. Read after write; the canonical form, which every operation keeps, makes the representation unique; and the same
for the controller's state. -/

namespace Sys2Proof.Machine

@[simp] theorem Memory.read_nil (a : Nat) : Memory.read [] a = unlistedByte := rfl

theorem Memory.read_cons (c : Host.Cell) (m : Memory) (a : Nat) :
    Memory.read (c :: m) a = if c.1 = a then c.2 else Memory.read m a := rfl

/-- An address that no cell has reads the unlisted value. -/
theorem Memory.read_unlisted {m : Memory} {a : Nat} (h : ∀ c ∈ m, c.1 ≠ a) : m.read a = unlistedByte := by
  induction m with
  | nil => rfl
  | cons c m ih =>
    rw [Memory.read_cons, if_neg (h c List.mem_cons_self)]
    exact ih fun d hd => h d (List.mem_cons_of_mem _ hd)

theorem Memory.read_erase (m : Memory) (a b : Nat) :
    (m.erase a).read b = if b = a then unlistedByte else m.read b := by
  by_cases hb : b = a
  · subst hb
    rw [if_pos rfl]
    exact Memory.read_unlisted fun c hc => (Memory.mem_erase.mp hc).2
  · rw [if_neg hb]
    induction m with
    | nil => rfl
    | cons c m ih =>
      by_cases hc : c.1 = a
      · have h1 : Memory.erase (c :: m) a = Memory.erase m a := by simp [Memory.erase, hc]
        rw [h1, ih, Memory.read_cons, if_neg (by omega)]
      · have h1 : Memory.erase (c :: m) a = c :: Memory.erase m a := by simp [Memory.erase, hc]
        rw [h1, Memory.read_cons, Memory.read_cons, ih]

theorem Memory.read_insert {m : Memory} {a : Nat} (v : Byte) (h : ∀ c ∈ m, c.1 ≠ a) (b : Nat) :
    (m.insert a v).read b = if b = a then v else m.read b := by
  induction m with
  | nil => simp [Memory.insert, Memory.read_cons, eq_comm]
  | cons d m ih =>
    have hd : d.1 ≠ a := h d List.mem_cons_self
    rw [Memory.insert]
    split
    · simp only [Memory.read_cons, eq_comm]
    · rw [Memory.read_cons, ih fun c hc => h c (List.mem_cons_of_mem _ hc), Memory.read_cons]
      by_cases hb : b = a
      · subst hb; rw [if_neg hd, if_pos rfl, if_pos rfl]
      · rw [if_neg hb, if_neg hb]

/-- Reading after a write: the byte written at its address, every other byte as before (R10). -/
theorem Memory.read_write (m : Memory) (a : Nat) (v : Byte) (b : Nat) :
    (m.write a v).read b = if b = a then v else m.read b := by
  rw [Memory.write]
  split
  · next h => rw [Memory.read_erase, h]
  · rw [Memory.read_insert v (fun c hc => (Memory.mem_erase.mp hc).2), Memory.read_erase]
    split <;> rfl

@[simp] theorem Memory.read_write_same (m : Memory) (a : Nat) (v : Byte) : (m.write a v).read a = v := by
  rw [Memory.read_write, if_pos rfl]

theorem Memory.read_write_other (m : Memory) {a b : Nat} (v : Byte) (h : b ≠ a) :
    (m.write a v).read b = m.read b := by
  rw [Memory.read_write, if_neg h]

/-- In a canonical memory the cells are exactly the addresses that do not read the unlisted value. -/
theorem Memory.mem_iff_read {n : Nat} {m : Memory} (hm : m.wf n) (a : Nat) (v : Byte) :
    (a, v) ∈ m ↔ m.read a = v ∧ v ≠ unlistedByte := by
  induction m with
  | nil => simp [eq_comm]
  | cons c m ih =>
    obtain ⟨hc, hm'⟩ := List.pairwise_cons.mp hm.1
    have hwf : Memory.wf n m := ⟨hm', fun d hd => hm.2 d (List.mem_cons_of_mem _ hd)⟩
    have hcv := (hm.2 c List.mem_cons_self).2
    rw [Memory.read_cons, List.mem_cons, ih hwf]
    by_cases h : c.1 = a
    · have hlow : Memory.read m a = unlistedByte :=
        Memory.read_unlisted fun d hd => by have := hc d hd; omega
      obtain ⟨ca, cv⟩ := c
      simp only at h hcv ⊢
      subst h
      rw [hlow, if_pos rfl]
      constructor
      · rintro (h | ⟨h, h'⟩)
        · simp only [Prod.mk.injEq, true_and] at h; subst h; exact ⟨rfl, hcv⟩
        · exact absurd h.symm h'
      · rintro ⟨rfl, _⟩; exact Or.inl rfl
    · rw [if_neg h]
      constructor
      · rintro (rfl | h')
        · exact absurd rfl h
        · exact h'
      · exact Or.inr

/-- Two canonical memories that read alike are equal data (R20). -/
theorem Memory.ext_of_wf {n n' : Nat} {m m' : Memory} (hm : m.wf n) (hm' : m'.wf n')
    (h : ∀ a, m.read a = m'.read a) : m = m' := by
  have hsub : ∀ c, c ∈ m ↔ c ∈ m' := fun ⟨a, v⟩ => by
    rw [Memory.mem_iff_read hm, Memory.mem_iff_read hm', h a]
  exact List.Perm.eq_of_pairwise
    (fun c d _ _ h1 h2 => absurd h1 (by omega)) hm.1 hm'.1
    ((List.perm_ext_iff_of_nodup
      (hm.1.imp fun h h' => by simp [h'] at h) (hm'.1.imp fun h h' => by simp [h'] at h)).mpr hsub)

/-- Every memory operation keeps the canonical form: the empty memory has it, and a write below the capacity keeps it. -/
theorem Memory.operations_keep_wf (n : Nat) :
    Memory.wf n [] ∧ ∀ (m : Memory) (a : Nat) (v : Byte), m.wf n → a < n → (m.write a v).wf n :=
  ⟨Memory.wf_nil n, fun _ _ v hm ha => Memory.write_wf hm ha v⟩

section store
variable {c : Config}

/-- Two stores that read alike are equal (R20). -/
theorem Store.ext_of_read {st st' : Store c} (h : ∀ a, st.byteAt a = st'.byteAt a) : st = st' := by
  obtain ⟨m, hm⟩ := st
  obtain ⟨m', hm'⟩ := st'
  have : m = m' := Memory.ext_of_wf hm hm' h
  subst this
  rfl

/-- A store has no byte at or above `N`. -/
theorem Store.byteAt_outside (st : Store c) {a : Nat} (h : c.byteCapacity.val ≤ a) : st.byteAt a = unlistedByte :=
  Memory.read_unlisted fun d hd => by have := (st.canonical.2 d hd).1; omega

@[simp] theorem Store.byteAt_zero (a : Nat) : (Store.zero c).byteAt a = 0x00 := rfl
@[simp] theorem Store.cells_zero : (Store.zero c).cells = [] := rfl

/-- A write of one byte, seen through the byte view (R10, R48). -/
theorem Store.byteAt_setByteAt (st : Store c) {a : Nat} (h : a < c.byteCapacity.val) (v : Byte) (b : Nat) :
    (st.setByteAt a h v).byteAt b = if b = a then v else st.byteAt b :=
  Memory.read_write st.cells a v b

/-- Of two writes to one byte the last one wins (R48(b)). -/
theorem Store.setByteAt_twice (st : Store c) {a : Nat} (h : a < c.byteCapacity.val) (v w : Byte) :
    (st.setByteAt a h v).setByteAt a h w = st.setByteAt a h w :=
  Store.ext_of_read fun b => by simp only [Store.byteAt_setByteAt]; split <;> rfl

/-- Writing the byte that is there changes nothing. -/
theorem Store.setByteAt_self (st : Store c) {a : Nat} (h : a < c.byteCapacity.val) :
    st.setByteAt a h (st.byteAt a) = st :=
  Store.ext_of_read fun b => by
    rw [Store.byteAt_setByteAt]
    split
    · next hb => rw [hb]
    · rfl

end store

end Sys2Proof.Machine
end

