-- ==== Sys2Proof/Laws/State.lean ====
section
/-! SUPPORT. One lemma per field for each update of the state, and the readers of the buffer over those updates. -/

namespace Sys2Proof.Machine

section after
variable (s : State) (st : Store s.cfg) (r : Response)

@[simp] theorem after_cfg : (s.after st r).cfg = s.cfg := rfl
@[simp] theorem after_store : (s.after st r).store = st := rfl
@[simp] theorem after_lifecycle : (s.after st r).lifecycle = s.lifecycle := rfl
@[simp] theorem after_pending : (s.after st r).pending = s.pending := rfl
@[simp] theorem after_responses : (s.after st r).responses = s.responses ++ [r] := rfl
@[simp] theorem after_buffer : (s.after st r).buffer = st.cells := rfl
@[simp] theorem after_byteAt (a : Nat) : (s.after st r).byteAt a = st.byteAt a := rfl
@[simp] theorem after_bitAt (i : Nat) : (s.after st r).bitAt i = st.bitAt i := rfl
@[simp] theorem after_byteCapacity : (s.after st r).byteCapacity = s.byteCapacity := rfl
@[simp] theorem after_boundOf (u : IndexUnit) : (s.after st r).boundOf u = s.boundOf u := rfl
end after

section resetEvent
variable (s : State)

@[simp] theorem resetEvent_cfg : (resetEvent s).cfg = s.cfg := rfl
@[simp] theorem resetEvent_store : (resetEvent s).store = Store.zero s.cfg := rfl
@[simp] theorem resetEvent_lifecycle : (resetEvent s).lifecycle = .ready := rfl
@[simp] theorem resetEvent_buffer : (resetEvent s).buffer = [] := rfl
@[simp] theorem resetEvent_pending : (resetEvent s).pending = s.pending := rfl
@[simp] theorem resetEvent_responses : (resetEvent s).responses = s.responses := rfl
@[simp] theorem resetEvent_byteAt (a : Nat) : (resetEvent s).byteAt a = 0x00 := rfl
@[simp] theorem resetEvent_byteCapacity : (resetEvent s).byteCapacity = s.byteCapacity := rfl
end resetEvent

section withPending
variable (s : State) (p : List HostMove)

@[simp] theorem withPending_buffer : ({ s with pending := p } : State).buffer = s.buffer := rfl
@[simp] theorem withPending_byteAt (a : Nat) : ({ s with pending := p } : State).byteAt a = s.byteAt a := rfl
@[simp] theorem withPending_byteCapacity : ({ s with pending := p } : State).byteCapacity = s.byteCapacity := rfl
@[simp] theorem withPending_boundOf (u : IndexUnit) : ({ s with pending := p } : State).boundOf u = s.boundOf u := rfl
end withPending

section bounds
variable (c : Config)

/-- The bound of a bit index is `8N` (R7, R141). -/
theorem boundOf_bit : boundOf c .bit = c.byteCapacity.val * 8 := rfl

/-- The bound of a byte index is `N` (R141). -/
theorem boundOf_byte : boundOf c .byte = c.byteCapacity.val := rfl

/-- `N` fits below `2^60`, so `8N` fits the signed field (R6, R7). -/
theorem byteCapacity_lt (s : State) : s.byteCapacity < 2 ^ 60 := s.cfg.byteCapacity.isLt
end bounds

section reset
variable (c : Config)

@[simp] theorem resetOf_cfg : (State.resetOf c).cfg = c := rfl
@[simp] theorem resetOf_store : (State.resetOf c).store = Store.zero c := rfl
@[simp] theorem resetOf_lifecycle : (State.resetOf c).lifecycle = .ready := rfl
@[simp] theorem resetOf_pending : (State.resetOf c).pending = [] := rfl
@[simp] theorem resetOf_responses : (State.resetOf c).responses = [] := rfl
end reset

end Sys2Proof.Machine
end

