-- ==== Sys2Proof/Laws/Ops.lean ====
section
/-! SUPPORT. One lemma for each shared operation that says everything it can do, and its equation in each case. -/

namespace Sys2Proof.Machine

section controller
variable {c : Config} {st st' : Store c} {r : Response}

/-- A passed range check goes on with the index as a natural number below the bound (R80, R81). -/
theorem checkIndex_inRange {u : IndexUnit} {i : Nat} (h : i < boundOf c u) (k : Nat → Reply c) :
    checkIndex u (i : Int) st k = k i := by
  rw [checkIndex, if_neg (by omega), Int.toNat_natCast]

/-- A failed range check ends the command with its error response (R80, R81, R87). -/
theorem checkIndex_outOfRange {u : IndexUnit} {index : Int} (h : index < 0 ∨ index ≥ (boundOf c u : Int))
    (k : Nat → Reply c) : checkIndex u index st k = raiseOutOfRange u index (boundOf c u) st := by
  rw [checkIndex, if_pos h]

/-- Every outcome of a range check. -/
theorem checkIndex_cases (u : IndexUnit) (index : Int) (st : Store c) (k : Nat → Reply c) :
    ((index < 0 ∨ (boundOf c u : Int) ≤ index) ∧
      checkIndex u index st k = .done st (Response.outOfRange u index (boundOf c u))) ∨
    (∃ i : Nat, index = i ∧ i < boundOf c u ∧ checkIndex u index st k = k i) := by
  by_cases h : index < 0 ∨ index ≥ (boundOf c u : Int)
  · exact .inl ⟨h, checkIndex_outOfRange h k⟩
  · refine .inr ⟨index.toNat, by omega, by omega, ?_⟩
    rw [checkIndex, if_neg h]

theorem memRead_eq {a : Nat} (h : a < c.byteCapacity.val) (k : Byte → Reply c) :
    memRead a st k = k (st.byteAt a) := by
  rw [memRead, if_pos h]

/-- If MemRead goes on to the end of the command, its precondition held and it passed on the byte (R10). -/
theorem memRead_eq_done {a : Nat} {k : Byte → Reply c} :
    memRead a st k = .done st' r ↔ a < c.byteCapacity.val ∧ k (st.byteAt a) = .done st' r := by
  rw [memRead]; split <;> simp_all

theorem memWrite_eq {a : Nat} {v : Byte} (h : a < c.byteCapacity.val) (k : Store c → Reply c) :
    memWrite a v st k = k (st.setByteAt a h v) := by
  rw [memWrite, dif_pos h]

/-- If MemWrite goes on to the end of the command, its precondition held and it passed on the written store (R10). -/
theorem memWrite_eq_done {a : Nat} {v : Byte} {k : Store c → Reply c} :
    memWrite a v st k = .done st' r ↔ ∃ h : a < c.byteCapacity.val, k (st.setByteAt a h v) = .done st' r := by
  rw [memWrite]; split <;> simp_all

@[simp] theorem respondOk_eq_done {b : Byte} :
    respondOk b st = .done st' r ↔ st = st' ∧ Response.ok b = r := by
  simp [respondOk]

@[simp] theorem raiseOutOfRange_eq_done {u : IndexUnit} {index : Int} {bound : Nat} :
    raiseOutOfRange u index bound st = .done st' r ↔ st = st' ∧ Response.outOfRange u index bound = r := by
  simp [raiseOutOfRange]

@[simp] theorem raiseIllegalCommand_eq_done :
    raiseIllegalCommand st = .done st' r ↔ st = st' ∧ Response.illegalCommand = r := by
  simp [raiseIllegalCommand]

/-- An in-range bit index lies in a byte below the capacity (R82). -/
theorem bytePos_lt {i : Nat} (h : i < boundOf c .bit) : (locate i).bytePos < c.byteCapacity.val := by
  rw [boundOf_bit] at h; simp only [locate]; omega

/-- Everything a presented word can do to the controller (R74, R89). -/
theorem storeStep_cases (w : CommandWord) (st : Store c) :
    (∃ i, decode w = .instr i ∧ st.step w = st.run i) ∨
    (∃ op, decode w = .illegalOpcode op ∧ st.step w = .done st Response.illegalCommand) := by
  unfold Store.step
  cases decode w <;> simp [raiseIllegalCommand]

end controller

/-- `afterReset` goes on exactly in a ready machine. -/
theorem afterReset_eq_next {s t : State} {k : Result} :
    afterReset s k = .next t ↔ s.lifecycle = .ready ∧ k = .next t := by
  unfold afterReset; cases s.lifecycle <;> simp

@[simp] theorem afterReset_ready {s : State} (h : s.lifecycle = .ready) (k : Result) : afterReset s k = k := by
  simp [afterReset, h]

@[simp] theorem afterReset_beforeReset {s : State} (h : s.lifecycle = .beforeReset) (k : Result) :
    afterReset s k = .refused .beforeFirstReset := by
  simp [afterReset, h]

/-- If a command carried out answers a next state, the machine was ready, and that state has the store and the response of
the controller's reply and nothing else changed. -/
theorem perform_eq_next {s t : State} {reply : Reply s.cfg} :
    perform s reply = .next t ↔ s.lifecycle = .ready ∧ ∃ st r, reply = .done st r ∧ s.after st r = t := by
  unfold perform
  rw [afterReset_eq_next]
  cases reply <;> simp

@[simp] theorem perform_done {s : State} (h : s.lifecycle = .ready) (st : Store s.cfg) (r : Response) :
    perform s (.done st r) = .next (s.after st r) := by
  unfold perform
  exact afterReset_ready h _

/-- Before the first reset every command is refused (R172). -/
theorem perform_beforeReset {s : State} (h : s.lifecycle = .beforeReset) (reply : Reply s.cfg) :
    perform s reply = .refused .beforeFirstReset := by
  unfold perform
  exact afterReset_beforeReset h _

/-- Every command of the host's machine is the controller's command carried out. -/
theorem exec_eq_perform (i : Instr) (s : State) : exec i s = perform s (s.store.run i) := by
  cases i <;> rfl

/-- A presented word is the controller's step on it carried out. -/
theorem runCommand_eq_perform (w : CommandWord) (s : State) : runCommand w s = perform s (s.store.step w) := by
  unfold runCommand Store.step
  cases decode w
  · exact exec_eq_perform _ _
  · rfl

/-- Every buffer has the right form: the type `Store` carries it. -/
theorem bufferWf (s : State) : s.BufferWf := s.store.canonical

/-- The next move, where the host makes one. -/
theorem takeMove_eq_some {s t : State} {m : HostMove} :
    takeMove s = some (m, t) ↔ ∃ rest, s.pending = m :: rest ∧ t = { s with pending := rest } := by
  unfold takeMove
  rcases s.pending with _ | ⟨m', rest⟩ <;> simp [and_comm, eq_comm]

/-- Everything one step can do (R11, R48). -/
theorem step_cases (s : State) :
    (s.pending = [] ∧ step s = .next s) ∨
    (∃ rest, s.pending = .reset :: rest ∧ step s = .next (resetEvent { s with pending := rest })) ∨
    (∃ w rest, s.pending = .command w :: rest ∧ step s = runCommand w { s with pending := rest }) := by
  unfold step runMove takeMove
  rcases hp : s.pending with _ | ⟨_ | _, rest⟩ <;> simp

/-- Everything a presented word can do (R74, R89). -/
theorem runCommand_cases (w : CommandWord) (s : State) :
    (∃ i, decode w = .instr i ∧ runCommand w s = exec i s) ∨
    (∃ op, decode w = .illegalOpcode op ∧ runCommand w s = perform s (raiseIllegalCommand s.store)) := by
  unfold runCommand
  cases decode w <;> simp

end Sys2Proof.Machine
end

