-- ==== Sys2Proof/Laws/PerInstr.lean ====
section
/-! SUPPORT. Per-command facts about the encoding, one lemma for each constructor. -/

namespace Sys2Proof.Laws

/-- The encoded word carries a legal opcode and the command's data byte, and the command's index where it fits. -/
def EncodedFields.Statement (i : Instr) : Prop :=
  1 ≤ i.opcode.toNat ∧ i.opcode.toNat ≤ 6 ∧ opField (encode i) = i.opcode ∧ dataField (encode i) = i.data ∧
    (i.WellFormed → indexField (encode i) = i.index)

/-- The part of the statement that does not depend on the command. -/
theorem encodedFields_of_opcode (i : Instr) (h : 1 ≤ i.opcode.toNat ∧ i.opcode.toNat ≤ 6) :
    EncodedFields.Statement i :=
  ⟨h.1, h.2, opField_packCommand _ _ _, dataField_packCommand _ _ _, fun hw => by
    rw [indexField, encode, indexBits_packCommand, toInt_ofInt_of_fits hw]⟩

theorem EncodedFields.getBit (k : Int) : EncodedFields.Statement (.getBit k) := encodedFields_of_opcode _ (by simp [Instr.opcode])
theorem EncodedFields.setBit (k : Int) : EncodedFields.Statement (.setBit k) := encodedFields_of_opcode _ (by simp [Instr.opcode])
theorem EncodedFields.clearBit (k : Int) : EncodedFields.Statement (.clearBit k) := encodedFields_of_opcode _ (by simp [Instr.opcode])
theorem EncodedFields.toggleBit (k : Int) : EncodedFields.Statement (.toggleBit k) := encodedFields_of_opcode _ (by simp [Instr.opcode])
theorem EncodedFields.setByte (k : Int) (v : Byte) : EncodedFields.Statement (.setByte k v) := encodedFields_of_opcode _ (by simp [Instr.opcode])
theorem EncodedFields.getByte (k : Int) : EncodedFields.Statement (.getByte k) := encodedFields_of_opcode _ (by simp [Instr.opcode])

end Sys2Proof.Laws
end

