-- ==== Sys2Proof/Laws/Run.lean ====
section
/-! SUPPORT. Runs of many steps. -/

namespace Sys2Proof.Machine

theorem reaches_zero (s : State) : Reaches 0 s s := rfl

/-- A run with a first step that answers `u` is that step and a run from `u`. -/
theorem reaches_succ {k : Nat} {s t u : State} (h : step s = .next u) : Reaches (k + 1) s t ↔ Reaches k u t :=
  ⟨fun ⟨v, hv, r⟩ => by rw [h] at hv; injection hv with hv; exact hv ▸ r, fun r => ⟨u, h, r⟩⟩

/-- Two runs one after the other. -/
theorem reaches_add {j k : Nat} {s t u : State} (h : Reaches j s t) (h' : Reaches k t u) : Reaches (j + k) s u := by
  induction j generalizing s with
  | zero => cases h; rw [Nat.zero_add]; exact h'
  | succ j ih =>
    obtain ⟨v, hv, r⟩ := h
    rw [Nat.succ_add]
    exact ⟨v, hv, ih r⟩

/-- The host's run, one step taken. -/
theorem hostRun_succ {M : Host.Core} {k : Nat} {s u : M.State} (h : M.step s = .next u) :
    M.run (k + 1) s = M.run k u := by
  rw [Host.Core.run, h]

/-- A run is the host's run of the same machine (Host/Core.lean). -/
theorem run_of_reaches {k : Nat} {s t : State} (h : Reaches k s t) : Host.Core.run Sys2Proof.core k s = .next t := by
  induction k generalizing s with
  | zero => cases h; rfl
  | succ k ih =>
    obtain ⟨u, hu, r⟩ := h
    exact (hostRun_succ (M := Sys2Proof.core) hu).trans (ih r)

end Sys2Proof.Machine
end

