-- ==== Sys2Proof/Machine/Listing.lean ====
section
/-! DEFINITION. How commands and responses are written: the assembler syntax of R70 and the hexadecimal words of R73. It
is notation only; the step does not use it. -/

namespace Sys2Proof.Machine

/-- The mnemonics of R64. -/
def mnemonicOf : Instr → String
  | .getBit _ => "GET_BIT"
  | .setBit _ => "SET_BIT"
  | .clearBit _ => "CLEAR_BIT"
  | .toggleBit _ => "TOGGLE_BIT"
  | .setByte _ _ => "SET_BYTE"
  | .getByte _ => "GET_BYTE"

/-- One line of a listing, numbers in decimal: `MNEMONIC index`, or `SET_BYTE index, value` (R70). -/
def listingOf (i : Instr) : String :=
  match i with
  | .setByte k v => mnemonicOf i ++ " " ++ toString k ++ ", " ++ toString v.toNat
  | .getBit k => mnemonicOf i ++ " " ++ toString k
  | .setBit k => mnemonicOf i ++ " " ++ toString k
  | .clearBit k => mnemonicOf i ++ " " ++ toString k
  | .toggleBit k => mnemonicOf i ++ " " ++ toString k
  | .getByte k => mnemonicOf i ++ " " ++ toString k

/-- One hexadecimal digit, capitals for ten to fifteen (R73's examples). -/
def hexDigit (d : Nat) : Char := if d < 10 then Char.ofNat (48 + d) else Char.ofNat (55 + d)

/-- The low `k` hexadecimal digits of a number, most significant first. -/
def hexDigits : Nat → Nat → List Char
  | 0, _ => []
  | k + 1, v => hexDigits k (v / 16) ++ [hexDigit (v % 16)]

/-- A command word as 20 hexadecimal digits (R73). -/
def commandHex (w : CommandWord) : List Char := hexDigits 20 w.toNat

/-- A response word as 38 hexadecimal digits (R73). -/
def responseHex (w : ResponseWord) : List Char := hexDigits 38 w.toNat

/-- A response in words: `OK r`, `OUT_OF_RANGE(unit, err_index, err_bound)`, `ILLEGAL_COMMAND` (R70). -/
def responseListing (r : Response) : String :=
  if r.status = statusOk then "OK " ++ toString r.rdata.toNat
  else if r.status = statusOutOfRange then
    "OUT_OF_RANGE(" ++ (if r.unit = unitCode .bit then "bit" else "byte") ++ ", " ++ toString r.errIndex ++ ", " ++
      toString r.errBound ++ ")"
  else "ILLEGAL_COMMAND"

end Sys2Proof.Machine
end

