-- ==== Sys2Proof/Tests/Slice0.lean ====
section
/-! SUPPORT. The model's own tests. Expected values are the spec's: its vectors S1, V1 to V11 (test vector file), the tables
of R64 and R84, and the examples of R70, R73 and R75. The last section shows, for each statement with hypotheses, a state
and operands that meet them together. -/

namespace Sys2Proof.Machine.Tests

/-- A ready machine of `n` bytes with the given cells and nothing presented. -/
def demo (n : Nat) (h : n < 2 ^ 60) (cells : Memory) (hc : Memory.wf n cells) : State :=
  { cfg := { byteCapacity := ⟨n, h⟩ }, store := { cells := cells, canonical := hc }, lifecycle := .ready, pending := [],
    responses := [] }

/-- S1's controller, `N = 10`. -/
def ten (cells : Memory) (hc : Memory.wf 10 cells := by decide) : State := demo 10 (by decide) cells hc

/-- The same machine with one move presented. -/
def presenting (s : State) (m : HostMove) : State := { s with pending := [m] }

/-! ## Well-formedness, decoding and encoding -/

theorem test_wf_refuses_index_too_high : ¬ Instr.WellFormed (.getBit (2 ^ 63)) := by decide
theorem test_wf_refuses_index_too_low : ¬ Instr.WellFormed (.setByte (-(2 ^ 63) - 1) 0x12) := by decide
theorem test_wf_admits_both_ends :
    Instr.WellFormed (.toggleBit (2 ^ 63 - 1)) ∧ Instr.WellFormed (.getBit (-(2 ^ 63))) := by decide

/-- R100's example word. -/
theorem test_decode_getBit : decode 0x0100000000000000000C = .instr (.getBit 12) := by decide
/-- R73: `SET_BIT 2`. -/
theorem test_decode_setBit : decode 0x02000000000000000002 = .instr (.setBit 2) := by decide
/-- V2: `CLEAR_BIT -1`. -/
theorem test_decode_clearBit : decode 0x0300FFFFFFFFFFFFFFFF = .instr (.clearBit (-1)) := by decide
/-- R103's example word. -/
theorem test_decode_toggleBit : decode 0x0400000000000000004F = .instr (.toggleBit 79) := by decide
/-- R120's example word. -/
theorem test_decode_setByte : decode 0x05880000000000000001 = .instr (.setByte 1 0b10001000) := by decide
/-- V8: the `data` field 0xEE of GET_BYTE is ignored. -/
theorem test_decode_getByte : decode 0x06EE0000000000000001 = .instr (.getByte 1) := by decide
/-- V2: the most negative index. -/
theorem test_decode_lowest_index : decode 0x01008000000000000000 = .instr (.getBit (-9223372036854775808)) := by decide
/-- V9: illegal words. -/
theorem test_decode_illegal :
    decode 0 = .illegalOpcode 0 ∧ decode 0x07FF0000000000000003 = .illegalOpcode 0x07 ∧
      decode 0xFF000000000000000000 = .illegalOpcode 0xFF := by decide
/-- R73, V2. -/
theorem test_encode :
    encode (.getBit (-1)) = 0x0100FFFFFFFFFFFFFFFF ∧ encode (.setByte 9 0x55) = 0x05550000000000000009 := by decide
/-- The table's rows, at index 1 and `data` 0x55. -/
theorem test_decodeTableWord :
    decodeTableWord 80 0x01550000000000000001 = some (.getBit 1) ∧
      decodeTableWord 80 0x05550000000000000001 = some (.setByte 1 0x55) ∧ decodeTableWord 80 0 = none := by decide

/-! ## The index decoder -/

/-- V1's largest index, of the largest controller. -/
theorem test_locate_largest :
    locate 9223372036854775799 = { bytePos := 1152921504606846974, bitPos := 0, mask := 0x01 } := by decide
/-- V1. -/
theorem test_locate_twelve : locate 12 = { bytePos := 1, bitPos := 3, mask := 0x08 } := by decide

/-! ## One command each -/

/-- V3: 0xB1 reads 1 at offset 3, where an LSB-first reading gives 0. -/
theorem test_getBit_msb_first :
    lastResponse (exec (.getBit 27) (demo 4 (by decide) [(3, 0xB1)] (by decide))) = some ⟨0, 1, 0, 0, 0⟩ := by decide
/-- V2: a negative index does not count from the end. -/
theorem test_getBit_negative : lastResponse (exec (.getBit (-1)) (ten [])) = some ⟨1, 0, 0, -1, 80⟩ := by decide
/-- S1 line 5: byte 0 becomes 10100000. -/
theorem test_setBit_or : bufferAfter (exec (.setBit 2) (ten [(0, 0x80)])) = some [(0, 0xA0)] := by decide
/-- S1 line 8: the last bit of the buffer. -/
theorem test_setBit_last : bufferAfter (exec (.setBit 79) (ten [(0, 0xA0)])) = some [(0, 0xA0), (9, 0x01)] := by decide
/-- S1 line 9. -/
theorem test_clearBit_and : bufferAfter (exec (.clearBit 8) (ten [(1, 0x88)])) = some [(1, 0x08)] := by decide
/-- V5: the byte becomes 0x00. -/
theorem test_clearBit_to_zero : bufferAfter (exec (.clearBit 9) (demo 2 (by decide) [(1, 0x40)] (by decide))) = some [] := by decide
/-- S1 line 6: the answer is the new value. -/
theorem test_toggleBit_new_value :
    lastResponse (exec (.toggleBit 8) (ten [(1, 0x88)])) = some ⟨0, 0, 0, 0, 0⟩ ∧
      bufferAfter (exec (.toggleBit 8) (ten [(1, 0x88)])) = some [(1, 0x08)] := by decide
/-- S1 line 7. -/
theorem test_toggleBit_back :
    lastResponse (exec (.toggleBit 8) (ten [(1, 0x08)])) = some ⟨0, 1, 0, 0, 0⟩ ∧
      bufferAfter (exec (.toggleBit 8) (ten [(1, 0x08)])) = some [(1, 0x88)] := by decide
/-- V8: the byte is replaced, not ORed. -/
theorem test_setByte_replaces : bufferAfter (exec (.setByte 0 0x01) (demo 2 (by decide) [(0, 0xFF)] (by decide))) = some [(0, 0x01)] := by
  decide
/-- V2: a valid bit index is no valid byte index. -/
theorem test_setByte_bound_is_bytes :
    lastResponse (exec (.setByte 79 0x55) (ten [])) = some ⟨1, 0, 1, 79, 10⟩ ∧
      bufferAfter (exec (.setByte 79 0x55) (ten [])) = some [] := by decide
/-- V8. -/
theorem test_getByte : lastResponse (exec (.getByte 1) (demo 2 (by decide) [(0, 0x01), (1, 0x80)] (by decide))) = some ⟨0, 0x80, 0, 0, 0⟩ := by
  decide
/-- V2. -/
theorem test_getByte_bound : lastResponse (exec (.getByte 10) (ten [])) = some ⟨1, 0, 1, 10, 10⟩ := by decide

/-! ## One step each -/

/-- V9: the illegal opcode is answered, the index -1 is not examined. -/
theorem test_step_illegal :
    lastResponse (step (presenting (demo 1 (by decide) [(0, 0x3C)] (by decide)) (.command 0x0800FFFFFFFFFFFFFFFF))) =
      some ⟨2, 0, 0, 0, 0⟩ := by decide
/-- V9: `GET_BIT 2` with `data = 0x77`. -/
theorem test_step_ignored_data :
    lastResponse (step (presenting (demo 1 (by decide) [(0, 0x3C)] (by decide)) (.command 0x01770000000000000002))) =
      some ⟨0, 1, 0, 0, 0⟩ := by decide
/-- V11: the reset event. -/
theorem test_step_reset :
    bufferAfter (step (presenting (demo 3 (by decide) [(0, 0xA0), (1, 0x08), (2, 0xFF)] (by decide)) .reset)) = some [] := by decide
/-- V10: zero capacity. -/
theorem test_step_zero_capacity :
    lastResponse (step (presenting (demo 0 (by decide) [] (by decide)) (.command 0x05120000000000000000))) =
      some ⟨1, 0, 1, 0, 0⟩ := by decide
/-- The first command after reset runs (V2: `TOGGLE_BIT 79`). -/
theorem test_fetch_word_runs_first :
    lastResponse (step (State.reset.withFetchWord 80 0x0400000000000000004F)) = some ⟨0, 1, 0, 0, 0⟩ := by decide

/-! ## Words as written -/

/-- V2's response words. -/
theorem test_pack :
    Response.pack ⟨1, 0, 0, -9223372036854775808, 80⟩ = 0x01000080000000000000000000000000000050 ∧
      Response.pack ⟨1, 0, 1, 10, 10⟩ = 0x010001000000000000000A000000000000000A := by decide
/-- R73's example. -/
theorem test_commandHex :
    commandHex (encode (.getBit (-1))) =
      ['0', '1', '0', '0', 'F', 'F', 'F', 'F', 'F', 'F', 'F', 'F', 'F', 'F', 'F', 'F', 'F', 'F', 'F', 'F'] := by decide

/-- R70's syntax and examples. -/
theorem test_listing :
    listingOf (.setByte 1 136) = "SET_BYTE 1, 136" ∧ listingOf (.getBit (-1)) = "GET_BIT -1" ∧
      responseListing ⟨0, 1, 0, 0, 0⟩ = "OK 1" ∧ responseListing ⟨1, 0, 0, 80, 80⟩ = "OUT_OF_RANGE(bit, 80, 80)" := by
  decide

/-! ## Witnesses: hypotheses that can be met, at the ends of each clause's range -/

theorem witness_ResetEventZeroesBuffer :
    (presenting (ten [(9, 0xFF)]) .reset).pending = .reset :: [] ∧
      79 < 8 * (presenting (ten [(9, 0xFF)]) .reset).cfg.byteCapacity.val ∧
      9 < (presenting (ten [(9, 0xFF)]) .reset).cfg.byteCapacity.val := by decide

/-- A machine before its first reset, with some buffer contents. -/
def unreset : State := { presenting (ten [(0, 0x55)]) (.command 0x01000000000000000000) with lifecycle := .beforeReset }

theorem witness_CommandBeforeFirstResetRefused :
    unreset.lifecycle = .beforeReset ∧ unreset.pending = .command 0x01000000000000000000 :: [] := by decide

theorem witness_DecodeEncodeRoundTrip :
    Instr.WellFormed (.getBit (-(2 ^ 63))) ∧ Instr.WellFormed (.setByte (2 ^ 63 - 1) 0xFF) := by decide

theorem witness_EncodeDecodeClearsIgnoredData :
    decode 0x01770000000000000002 = .instr (.getBit 2) ∧
      (0x05880000000000000001 : CommandWord).toNat / 2 ^ 72 = 0x05 ∧
      decode 0x05880000000000000001 = .instr (.setByte 1 0x88) ∧
      (0x01770000000000000002 : CommandWord).toNat / 2 ^ 72 ≠ 0x05 := by decide

theorem witness_IgnoredDataDoesNotMatter : (0x01 : BitVec 8) ≠ 0x05 := by decide

theorem witness_StepRunsDecodedCommand :
    (presenting (ten []) (.command 0x02000000000000000002)).pending = .command 0x02000000000000000002 :: [] ∧
      decode 0x02000000000000000002 = .instr (.setBit 2) := by decide

/-- Legal opcodes at both ends, illegal ones next to them. -/
theorem witness_IllegalCommandExactlyWhenOpcodeUnknown :
    (presenting (ten []) (.command 0x07FF0000000000000003)).lifecycle = .ready ∧
      (presenting (ten []) (.command 0x07FF0000000000000003)).pending = .command 0x07FF0000000000000003 :: [] ∧
      ¬ (0x01 ≤ (0x07FF0000000000000003 : CommandWord).toNat / 2 ^ 72 ∧
        (0x07FF0000000000000003 : CommandWord).toNat / 2 ^ 72 ≤ 0x06) ∧
      ¬ (0x01 ≤ (0 : CommandWord).toNat / 2 ^ 72 ∧ (0 : CommandWord).toNat / 2 ^ 72 ≤ 0x06) ∧
      (0x01 ≤ (0x01000000000000000000 : CommandWord).toNat / 2 ^ 72 ∧
        (0x06000000000000000000 : CommandWord).toNat / 2 ^ 72 ≤ 0x06) := by decide

theorem witness_EveryCommandGetsOneResponse :
    (presenting (ten []) (.command 0)).lifecycle = .ready ∧
      (presenting (ten []) (.command 0)).pending = .command 0 :: [] := by decide

theorem witness_NoMoveNoChange : (ten []).pending = [] := by decide

/-- The bit commands' clauses (GetBitMeaning, SetBitMeaning, ClearBitMeaning, ToggleBitMeaning) at the ends of their
ranges: index 79 is in range, 80 and -1 are not; and a word of each opcode. -/
theorem witness_bit_command_meanings :
    (ten []).lifecycle = .ready ∧ 79 < 8 * (ten []).cfg.byteCapacity.val ∧
      8 * ((ten []).cfg.byteCapacity.val : Int) ≤ 80 ∧ (-1 : Int) < 0 ∧
      (0x0100000000000000000C : CommandWord).toNat / 2 ^ 72 = 0x01 ∧
      (0x02000000000000000002 : CommandWord).toNat / 2 ^ 72 = 0x02 ∧
      (0x03000000000000000008 : CommandWord).toNat / 2 ^ 72 = 0x03 ∧
      (0x0400000000000000004F : CommandWord).toNat / 2 ^ 72 = 0x04 := by decide

/-- The byte commands' clauses (SetByteMeaning, GetByteMeaning) at the ends of their ranges. -/
theorem witness_byte_command_meanings :
    (ten []).lifecycle = .ready ∧ 9 < (ten []).cfg.byteCapacity.val ∧ ((ten []).cfg.byteCapacity.val : Int) ≤ 10 ∧
      (-1 : Int) < 0 ∧ (0x05880000000000000001 : CommandWord).toNat / 2 ^ 72 = 0x05 ∧
      (0x06000000000000000001 : CommandWord).toNat / 2 ^ 72 = 0x06 := by decide

theorem witness_BitCommandFailureLeavesStoreIntact :
    (presenting (ten []) (.command 0x02000000000000000050)).lifecycle = .ready ∧
      (presenting (ten []) (.command 0x02000000000000000050)).pending = .command 0x02000000000000000050 :: [] ∧
      0x01 ≤ (0x02000000000000000050 : CommandWord).toNat / 2 ^ 72 ∧
      (0x02000000000000000050 : CommandWord).toNat / 2 ^ 72 ≤ 0x04 ∧
      8 * ((ten []).cfg.byteCapacity.val : Int) ≤ indexField 0x02000000000000000050 ∧
      indexField 0x0400FFFFFFFFFFFFFFFF < 0 := by decide

/-- Both units, in range at the last index and out of range at the next. -/
theorem witness_RangeDecidesOutcome :
    (ten []).lifecycle = .ready ∧ Instr.unit (.getBit 80) = .bit ∧ Instr.unit (.getByte 10) = .byte ∧
      8 * ((ten []).cfg.byteCapacity.val : Int) ≤ Instr.index (.getBit 80) ∧
      ¬ 8 * ((ten []).cfg.byteCapacity.val : Int) ≤ Instr.index (.getBit 79) ∧
      ((ten []).cfg.byteCapacity.val : Int) ≤ Instr.index (.getByte 10) ∧
      ¬ ((ten []).cfg.byteCapacity.val : Int) ≤ Instr.index (.getByte 9) := by decide

theorem witness_ErrorsAreNotSticky :
    (ten []).lifecycle = .ready ∧ ¬ IndexInRange (.setBit 80) (ten []) ∧
      (presenting (ten []) (.command 0)).lifecycle = .ready ∧
      (presenting (ten []) (.command 0)).pending = .command 0 :: [] ∧ decode 0 = .illegalOpcode 0 := by
  refine ⟨by decide, fun h => absurd h.2 (by decide), by decide, by decide, by decide⟩

theorem witness_ZeroCapacityAnswersEveryCommand :
    (demo 0 (by decide) [] (by decide)).lifecycle = .ready ∧ (demo 0 (by decide) [] (by decide)).cfg.byteCapacity.val = 0 ∧
      (presenting (demo 0 (by decide) [] (by decide)) (.command 0x06000000000000000000)).pending =
        .command 0x06000000000000000000 :: [] := by decide

theorem witness_AdapterNeverTruncates :
    adaptInstr (.setByte 9 0x55) (ten []) = .word 0x05550000000000000009 ∧ ¬ IndexFits (2 ^ 63) ∧ ¬ IndexFits (-(2 ^ 63) - 1) ∧
      (IndexFits 0 ∧ (255 : Int) < 256 ∧ (-1 : Int) < 0) ∧ ((0 : Int) ≤ 0 ∧ (0 : Int) ≤ 255 ∧ (255 : Int) ≤ 255) := by decide

theorem witness_HardwareLocateAgrees : 0 ≤ (79 : BitVec 64).toInt := by decide

/-- The ends of each range: the last index of ten bytes, the last byte, the last offset. -/
theorem witness_LocateIsOneToOne : 79 < 8 * 10 ∧ 9 < 10 ∧ 7 < 8 ∧ 72 ≠ 79 := by decide

theorem witness_BitViewOfBytes : 7 < 8 := by decide

theorem witness_BitWritesAreLocal :
    (ten []).lifecycle = .ready ∧ 7 < 8 * (ten []).cfg.byteCapacity.val ∧ 79 < 8 * (ten []).cfg.byteCapacity.val ∧
      79 ≠ 7 := by decide

theorem witness_BitWriteThenRead : (ten []).lifecycle = .ready ∧ 79 < 8 * (ten []).cfg.byteCapacity.val := by decide

/-- S1's buffer and its last index (ToggleIsInvolution, SetAndClearAreIdempotent). -/
theorem witness_involution_and_idempotence :
    (ten [(0, 0xA0), (9, 0x01)]).lifecycle = .ready ∧
      79 < 8 * (ten [(0, 0xA0), (9, 0x01)]).cfg.byteCapacity.val := by decide

/-- ByteWriteSeenThroughBits and BitsSeenThroughByteRead, at the last byte and another. -/
theorem witness_byte_views :
    (ten []).lifecycle = .ready ∧ 9 < (ten []).cfg.byteCapacity.val ∧ 0 < (ten []).cfg.byteCapacity.val ∧ 0 ≠ 9 ∧ 7 < 8 := by
  decide

theorem witness_DifferentBytesCommute :
    (ten []).lifecycle = .ready ∧ IndexInRange (.setBit 7) (ten []) ∧
      IndexInRange (.setByte 1 0x4E) (ten []) ∧ byteNumberOf (.setBit 7) ≠ byteNumberOf (.setByte 1 0x4E) := by
  refine ⟨by decide, ⟨by decide, by decide⟩, ⟨by decide, by decide⟩, by decide⟩

theorem witness_CommandsRefineBitArray :
    (ten []).lifecycle = .ready ∧ 79 < 8 * (ten []).cfg.byteCapacity.val := by decide

theorem witness_ResponseWordRoundTrip : LegalResponse (ten []).cfg ⟨1, 0, 0, -1, 80⟩ :=
  .inr (.inl ⟨rfl, rfl, by decide, by decide, .inl ⟨rfl, rfl⟩⟩)

/-- StepKeepsBufferWellFormed, StepKeepsResponsesLegal and CapacityNeverChanges: a step that answers. -/
theorem witness_step_invariants :
    (∃ t, step (presenting (ten []) .reset) = .next t) ∧ (presenting (ten []) .reset).ResponsesLegal ∧
      (presenting (ten []) .reset).cfg.byteCapacity.val ≤ 10 :=
  ⟨⟨_, rfl⟩, fun r h => absurd h (by simp [presenting, ten, demo]), by decide⟩

/-- A store whose bytes are all 0x00, and a used machine about to be reset. -/
theorem witness_ResetStateIsTheAllZeroBuffer :
    (∀ k < (ten []).cfg.byteCapacity.val, (ten []).store.byteAt k = 0x00) ∧
      (presenting (ten [(9, 0xFF)]) .reset).pending = .reset :: [] := by decide

theorem witness_ResetMachineNeverStops :
    State.reset.lifecycle = .ready ∧ ({ unreset with pending := [.reset] } : State).pending = .reset :: [] := by decide

theorem witness_RunAnswersEveryCommandOnce : State.reset.lifecycle = .ready := by decide

theorem witness_LoadImageLoadsTheImage :
    [0xB1, 0x4E].length ≤ ({ ten [] with pending := pseudoConstruct ++ pseudoLoadImage [0xB1, 0x4E] ++ [.reset] } :
        State).cfg.byteCapacity.val ∧
      ({ ten [] with pending := pseudoConstruct ++ pseudoLoadImage [0xB1, 0x4E] ++ [.reset] } : State).pending =
        pseudoConstruct ++ pseudoLoadImage [0xB1, 0x4E] ++ [.reset] := by decide

theorem witness_DumpAnswersTheWholeBuffer :
    ({ ten [(9, 0x01)] with pending := pseudoDump 10 ++ [] } : State).lifecycle = .ready ∧
      ({ ten [(9, 0x01)] with pending := pseudoDump 10 ++ [] } : State).pending =
        pseudoDump ({ ten [(9, 0x01)] with pending := pseudoDump 10 ++ [] } : State).cfg.byteCapacity.val ++ [] := by decide

/-- Two requesters on one controller: the first works on byte 0, the second on byte 1 and with an index of -1, which its
error response answers; the third command is the first requester's again. -/
def shared : List (Bool × Instr) :=
  [(true, .setBit 7), (false, .setByte 1 0x4E), (true, .clearBit 6), (false, .setByte (-1) 0x55)]

theorem witness_MergesOfByteDisjointStreamsAgree :
    (ten []).lifecycle = .ready ∧ (∀ z ∈ shared, z.2.WellFormed) ∧
      streamOf true shared = [.setBit 7, .clearBit 6] ∧
      (∀ x ∈ streamOf true shared, ∀ y ∈ streamOf false shared,
        IndexInRange x (ten []) → IndexInRange y (ten []) → byteNumberOf x ≠ byteNumberOf y) := by
  unfold IndexInRange
  decide

theorem witness_StoreIsTheArrayOfItsBytes : 9 < (ten []).cfg.byteCapacity.val := by decide

theorem witness_StepIsTheControllerFunction :
    (presenting (ten []) (.command 0x06000000000000000009)).lifecycle = .ready ∧
      (presenting (ten []) (.command 0x06000000000000000009)).pending = .command 0x06000000000000000009 :: [] := by decide

theorem witness_ReadyStepAnswersReady :
    (presenting (ten []) .reset).lifecycle = .ready ∧ (presenting (ten []) .reset).pending ≠ [] := by decide

end Sys2Proof.Machine.Tests
end

section
/-! What each command does in range and out of range, and from it that every command word completes and no step faults:
the range check comes before every access to the buffer (R10, R89). -/

namespace Sys2Proof.Machine

section controller
variable {c : Config} (st : Store c)

/-! ### Each command in range: one equation per command -/

theorem Store.getBit_inRange {i : Nat} (h : i < boundOf c .bit) :
    st.getBit i = .done st (Response.ok (st.bitAt i)) := by
  rw [Store.getBit, checkBit, checkIndex_inRange h, memRead_eq (bytePos_lt h)]
  rfl

theorem Store.setBit_inRange {i : Nat} (h : i < boundOf c .bit) :
    st.setBit i = .done (st.setByteAt (locate i).bytePos (bytePos_lt h)
      (st.byteAt (locate i).bytePos ||| (locate i).mask)) (Response.ok 0) := by
  rw [Store.setBit, checkBit, checkIndex_inRange h, memRead_eq (bytePos_lt h), memWrite_eq (bytePos_lt h)]
  rfl

theorem Store.clearBit_inRange {i : Nat} (h : i < boundOf c .bit) :
    st.clearBit i = .done (st.setByteAt (locate i).bytePos (bytePos_lt h)
      (st.byteAt (locate i).bytePos &&& ~~~ (locate i).mask)) (Response.ok 0) := by
  rw [Store.clearBit, checkBit, checkIndex_inRange h, memRead_eq (bytePos_lt h), memWrite_eq (bytePos_lt h)]
  rfl

theorem Store.toggleBit_inRange {i : Nat} (h : i < boundOf c .bit) :
    st.toggleBit i = .done (st.setByteAt (locate i).bytePos (bytePos_lt h)
        (st.byteAt (locate i).bytePos ^^^ (locate i).mask))
      (Response.ok (readBit (st.byteAt (locate i).bytePos ^^^ (locate i).mask) (locate i).bitPos)) := by
  rw [Store.toggleBit, checkBit, checkIndex_inRange h, memRead_eq (bytePos_lt h), memWrite_eq (bytePos_lt h)]
  rfl

theorem Store.setByte_inRange {k : Nat} (h : k < boundOf c .byte) (v : Byte) :
    st.setByte k v = .done (st.setByteAt k h v) (Response.ok 0) := by
  rw [Store.setByte, checkByte, checkIndex_inRange h, memWrite_eq h]
  rfl

theorem Store.getByte_inRange {k : Nat} (h : k < boundOf c .byte) :
    st.getByte k = .done st (Response.ok (st.byteAt k)) := by
  rw [Store.getByte, checkByte, checkIndex_inRange h, memRead_eq h]
  rfl

/-! ### Every command -/

/-- R89: every command begins with the range check of its unit. -/
theorem Store.run_eq_checkIndex (i : Instr) : ∃ k, st.run i = checkIndex i.unit i.index st k := by
  cases i with
  | getBit k => rw [Store.run, Store.getBit, checkBit]; exact ⟨_, rfl⟩
  | setBit k => rw [Store.run, Store.setBit, checkBit]; exact ⟨_, rfl⟩
  | clearBit k => rw [Store.run, Store.clearBit, checkBit]; exact ⟨_, rfl⟩
  | toggleBit k => rw [Store.run, Store.toggleBit, checkBit]; exact ⟨_, rfl⟩
  | setByte k v => rw [Store.run, Store.setByte, checkByte]; exact ⟨_, rfl⟩
  | getByte k => rw [Store.run, Store.getByte, checkByte]; exact ⟨_, rfl⟩

/-- R87, R142: a command whose index is out of range for its unit changes no byte and answers with its error response. -/
theorem Store.run_outOfRange {i : Instr} (h : i.index < 0 ∨ (boundOf c i.unit : Int) ≤ i.index) :
    st.run i = .done st (Response.outOfRange i.unit i.index (boundOf c i.unit)) := by
  obtain ⟨k, hrun⟩ := st.run_eq_checkIndex i
  rw [hrun, checkIndex_outOfRange h]
  rfl

/-- R148: a command whose index is in range for its unit answers OK. -/
theorem Store.run_inRange {i : Instr} {n : Nat} (hn : i.index = n) (h : n < boundOf c i.unit) :
    ∃ st' v, st.run i = .done st' (Response.ok v) := by
  cases i with
  | getBit k => obtain rfl : k = n := hn; exact ⟨_, _, st.getBit_inRange h⟩
  | setBit k => obtain rfl : k = n := hn; exact ⟨_, _, st.setBit_inRange h⟩
  | clearBit k => obtain rfl : k = n := hn; exact ⟨_, _, st.clearBit_inRange h⟩
  | toggleBit k => obtain rfl : k = n := hn; exact ⟨_, _, st.toggleBit_inRange h⟩
  | setByte k v => obtain rfl : k = n := hn; exact ⟨_, _, st.setByte_inRange h v⟩
  | getByte k => obtain rfl : k = n := hn; exact ⟨_, _, st.getByte_inRange h⟩

/-- R11: every command completes with a store and a response, whatever its index. -/
theorem Store.run_completes (i : Instr) : ∃ st' r, st.run i = .done st' r := by
  by_cases hout : i.index < 0 ∨ (boundOf c i.unit : Int) ≤ i.index
  · exact ⟨_, _, st.run_outOfRange hout⟩
  · obtain ⟨st', v, hrun⟩ := st.run_inRange (i := i) (n := i.index.toNat) (by omega) (by omega)
    exact ⟨st', _, hrun⟩

/-- R11: the controller's function is total: every word, legal or not, completes with a store and a response. -/
theorem Store.step_completes (w : CommandWord) : ∃ st' r, st.step w = .done st' r := by
  rcases storeStep_cases w st with ⟨i, _, hstep⟩ | ⟨_, _, hstep⟩
  · rw [hstep]
    exact st.run_completes i
  · exact ⟨_, _, hstep⟩

end controller

/-! ### The step of the host's machine -/

/-- R11, R48: a step with a command pending takes the word and carries out the controller's step on it. -/
theorem step_command {s : State} {w : CommandWord} {rest : List HostMove} (hp : s.pending = .command w :: rest) :
    step s = perform { s with pending := rest } (s.store.step w) := by
  have hmove : takeMove s = some (.command w, { s with pending := rest }) := takeMove_eq_some.mpr ⟨rest, hp, rfl⟩
  rw [step, runMove, hmove]
  exact runCommand_eq_perform w _

/-- A command that the controller completes does not fault in the host's machine, ready or not. -/
theorem perform_done_ne_fault (s : State) (st : Store s.cfg) (r : Response) (f : Fault) :
    perform s (.done st r) ≠ .fault f := by
  cases hl : s.lifecycle with
  | beforeReset => simp [perform_beforeReset hl]
  | ready => simp [perform_done hl]

/-- Settles O2: the controller completes every word, and carrying out its reply in a ready machine changes only the store,
the pending moves and the responses. -/
theorem stepIsTheControllerFunction : Obligations.StepIsTheControllerFunction := by
  refine ⟨fun c st w => st.step_completes w, fun s w rest hready hp => ?_⟩
  obtain ⟨st', r, hdone⟩ := s.store.step_completes w
  refine ⟨st', r, hdone, ?_⟩
  rw [step_command hp, hdone]
  exact perform_done (s := { s with pending := rest }) hready st' r

/-- Settles O47, by the three things a step can do: only a command accesses the buffer, and the controller completes every
word. -/
theorem noAccessOutsideBuffer : Obligations.NoAccessOutsideBuffer := by
  intro s f
  rcases step_cases s with ⟨_, hstep⟩ | ⟨rest, _, hstep⟩ | ⟨w, rest, hp, _⟩
  · simp [hstep]
  · simp [hstep]
  · obtain ⟨st', r, hdone⟩ := s.store.step_completes w
    rw [step_command hp, hdone]
    exact perform_done_ne_fault { s with pending := rest } st' r f

end Sys2Proof.Machine
end

section
/-! The store as its bytes and as its bits: a write of one byte seen through the bit view, every command as its effect on an
array of bits (R29), and a store as the array of its `N` bytes (R20). -/

namespace Sys2Proof.Machine

/-! ### Reading a bit of a byte -/

@[simp] theorem readBit_zero (p : Nat) : readBit 0 p = 0 := by
  simp [readBit_eq]

/-- Reading a bit in plain arithmetic: the byte divided by the bit's weight, modulo 2 (R85). -/
theorem readBit_eq_ofNat (v : Byte) (p : Nat) : readBit v p = BitVec.ofNat 8 (v.toNat / 2 ^ p % 2) := by
  rw [readBit_eq, BitVec.getLsbD, Nat.testBit_eq_decide_div_mod_eq]
  rcases Nat.mod_two_eq_zero_or_one (v.toNat / 2 ^ p) with h | h <;> simp [h]

/-- A byte and a mask have no bit in common exactly when the byte's bit at that position is 0 (R84, R85). -/
theorem and_maskOf_eq_zero_iff (v : Byte) {p : Nat} (hp : p < 8) : v &&& maskOf p = 0 ↔ v.getLsbD p = false := by
  constructor
  · intro h
    have hbit : (v &&& maskOf p).getLsbD p = false := by rw [h]; simp
    simpa [BitVec.getLsbD_and, getLsbD_maskOf hp] using hbit
  · intro h
    apply BitVec.eq_of_getLsbD_eq
    intro k _
    rw [BitVec.getLsbD_and, getLsbD_maskOf hp]
    by_cases hk : k = p
    · simp [hk, h]
    · simp [hk]

/-- The mask of an offset in store numbering is the mask of its bit position in word numbering (R40, R83). -/
theorem ushiftRight_eq_maskOf : ∀ b < 8, 0x80#8 >>> b = maskOf (7 - b) := by decide

/-! ### A write of one byte seen through the bit view -/

section store
variable {c : Config} (st : Store c)

theorem Store.bitAt_setByteAt {a : Nat} (h : a < c.byteCapacity.val) (v : Byte) (j : Nat) :
    (st.setByteAt a h v).bitAt j = if (locate j).bytePos = a then readBit v (locate j).bitPos else st.bitAt j := by
  rw [Store.bitAt, Store.byteAt_setByteAt, apply_ite (readBit · _)]
  rfl

/-- R104: where the new byte has the bit `w` at the addressed position and is the old byte at the others, the bit view
changes at the addressed index only. -/
theorem Store.bitAt_setByteAt_locate {i : Nat} (h : (locate i).bytePos < c.byteCapacity.val) {v w : Byte}
    (hv : ∀ p < 8, readBit v p = if p = (locate i).bitPos then w else readBit (st.byteAt (locate i).bytePos) p)
    (j : Nat) : (st.setByteAt (locate i).bytePos h v).bitAt j = if j = i then w else st.bitAt j := by
  rw [Store.bitAt_setByteAt]
  by_cases hji : j = i
  · subst hji
    simp [hv _ (bitPos_lt j)]
  · by_cases hbyte : (locate j).bytePos = (locate i).bytePos
    · have hpos : (locate j).bitPos ≠ (locate i).bitPos := fun hpos => hji (locate_injective hbyte hpos)
      rw [if_pos hbyte, if_neg hji, hv _ (bitPos_lt j), if_neg hpos, ← hbyte]
      rfl
    · rw [if_neg hbyte, if_neg hji]

/-! ### Every command as its effect on an array of bits -/

/-- On the array of `8N` bits a command whose index is out of range has no effect. -/
theorem bitArrayAfter_outOfRange {i : Instr} (hout : i.index < 0 ∨ (boundOf c i.unit : Int) ≤ i.index)
    (bits : Nat → Byte) {j : Nat} (hj : j < 8 * c.byteCapacity.val) : bitArrayAfter i bits j = bits j := by
  cases i with
  | getBit k => rfl
  | getByte k => rfl
  | setBit k | clearBit k | toggleBit k =>
    simp only [Instr.index, Instr.unit, boundOf_bit] at hout
    have hne : (j : Int) ≠ k := by omega
    simp [bitArrayAfter, hne]
  | setByte k v =>
    simp only [Instr.index, Instr.unit, boundOf_byte] at hout
    have hne : ((j / 8 : Nat) : Int) ≠ k := by omega
    exact if_neg hne

/-- R100 to R104, R120: in range, the bits after a command are those its effect on the array of bits gives. -/
theorem Store.run_bits_inRange {i : Instr} {n : Nat} (hn : i.index = n) (h : n < boundOf c i.unit) :
    ∃ st' r, st.run i = .done st' r ∧ ∀ j, st'.bitAt j = bitArrayAfter i st.bitAt j := by
  cases i with
  | getBit k =>
    obtain rfl : k = n := hn
    exact ⟨_, _, st.getBit_inRange h, fun _ => rfl⟩
  | setBit k =>
    obtain rfl : k = n := hn
    refine ⟨_, _, st.setBit_inRange h, fun j => ?_⟩
    simp only [bitArrayAfter, Nat.cast_inj]
    exact st.bitAt_setByteAt_locate _ (fun p _ => readBit_or_mask _ (bitPos_lt n)) j
  | clearBit k =>
    obtain rfl : k = n := hn
    refine ⟨_, _, st.clearBit_inRange h, fun j => ?_⟩
    simp only [bitArrayAfter, Nat.cast_inj]
    exact st.bitAt_setByteAt_locate _ (fun p hp => readBit_and_not_mask _ hp (bitPos_lt n)) j
  | toggleBit k =>
    obtain rfl : k = n := hn
    refine ⟨_, _, st.toggleBit_inRange h, fun j => ?_⟩
    have hflip : ∀ p < 8, readBit (st.byteAt (locate n).bytePos ^^^ (locate n).mask) p =
        if p = (locate n).bitPos then 1 - st.bitAt n else readBit (st.byteAt (locate n).bytePos) p := by
      intro p _
      rw [locate_mask, readBit_xor_mask _ (bitPos_lt n)]
      split
      · next hp => rw [hp]; rfl
      · rfl
    rw [st.bitAt_setByteAt_locate _ hflip]
    simp only [bitArrayAfter, Nat.cast_inj]
    split
    · next hj => rw [hj]
    · rfl
  | setByte k v =>
    obtain rfl : k = n := hn
    refine ⟨_, _, st.setByte_inRange h v, fun j => ?_⟩
    simp only [bitArrayAfter, Nat.cast_inj, ← readBit_eq_ofNat]
    exact st.bitAt_setByteAt h v j
  | getByte k =>
    obtain rfl : k = n := hn
    exact ⟨_, _, st.getByte_inRange h, fun _ => rfl⟩

/-- R29: every command completes, and the `8N` bits after it are those its effect on the array of bits gives. -/
theorem Store.run_bits (i : Instr) :
    ∃ st' r, st.run i = .done st' r ∧ ∀ j < 8 * c.byteCapacity.val, st'.bitAt j = bitArrayAfter i st.bitAt j := by
  by_cases hout : i.index < 0 ∨ (boundOf c i.unit : Int) ≤ i.index
  · exact ⟨st, _, st.run_outOfRange hout, fun j hj => (bitArrayAfter_outOfRange hout _ hj).symm⟩
  · obtain ⟨st', r, hrun, hbits⟩ := st.run_bits_inRange (i := i) (n := i.index.toNat) (by omega) (by omega)
    exact ⟨st', r, hrun, fun j _ => hbits j⟩

end store

/-- Settles O39: the host's machine carries out the controller's command, whose bits are those of the array. -/
theorem commandsRefineBitArray : Obligations.CommandsRefineBitArray := by
  intro s i hready
  obtain ⟨st', r, hrun, hbits⟩ := s.store.run_bits i
  refine ⟨s.after st' r, ?_, ⟨rfl, rfl, rfl⟩, hbits⟩
  rw [exec_eq_perform, hrun, perform_done hready]

/-- Settles O31: the bit view reads position `7 - b` of byte `k`, and that position's mask is `0x80 >> b`. -/
theorem bitViewOfBytes : Obligations.BitViewOfBytes := by
  intro s k b hb
  have hplace : s.bitAt (8 * k + b) = readBit (s.byteAt k) (7 - b) := by
    rw [State.bitAt, Store.bitAt, State.byteAt, show (locate (8 * k + b)).bytePos = k by simp only [locate]; omega,
      show (locate (8 * k + b)).bitPos = 7 - b by simp only [locate]; omega]
  rw [hplace, readBit_eq, ushiftRight_eq_maskOf b hb]
  simp only [and_maskOf_eq_zero_iff _ (show 7 - b < 8 by omega)]
  cases (s.byteAt k).getLsbD (7 - b) <;> rfl

/-! ### A store is the array of its bytes -/

section store
variable {c : Config}

/-- R20: two stores are equal exactly when they agree below `N`, since both read 0x00 from there on. -/
theorem Store.eq_iff_byteAt {st st' : Store c} : st = st' ↔ ∀ k < c.byteCapacity.val, st.byteAt k = st'.byteAt k := by
  refine ⟨fun h _ _ => by rw [h], fun h => Store.ext_of_read fun a => ?_⟩
  by_cases ha : a < c.byteCapacity.val
  · exact h a ha
  · rw [st.byteAt_outside (by omega), st'.byteAt_outside (by omega)]

/-- Any `n` bytes, up to the capacity, are the first bytes of some store: they are written one after the other. -/
theorem Store.exists_byteAt (f : Nat → Byte) {n : Nat} (hn : n ≤ c.byteCapacity.val) :
    ∃ st : Store c, ∀ k < n, st.byteAt k = f k := by
  induction n with
  | zero => exact ⟨Store.zero c, fun k hk => absurd hk (Nat.not_lt_zero k)⟩
  | succ n ih =>
    obtain ⟨st, hst⟩ := ih (by omega)
    refine ⟨st.setByteAt n (by omega) (f n), fun k hk => ?_⟩
    rw [Store.byteAt_setByteAt]
    split
    · next hkn => rw [hkn]
    · exact hst k (by omega)

end store

/-- Settles O1: bytes below `N` decide a store, and every array of them is written byte by byte. -/
theorem storeIsTheArrayOfItsBytes : Obligations.StoreIsTheArrayOfItsBytes :=
  fun _ => ⟨fun _ _ => Store.eq_iff_byteAt, fun f => Store.exists_byteAt f le_rfl⟩

end Sys2Proof.Machine
end

section
/-! What does not matter to a command, what every step keeps (one inversion lemma for the step, from which its invariants
follow), and the state right after reset. -/

namespace Sys2Proof.Machine

/-! ### History -/

section history
variable (i : Instr) {c : Config} (st : Store c) (l : Lifecycle) (p p' : List HostMove) (rs rs' : List Response)

/-- R24, R30: neither the response of a command nor the buffer it leaves depends on the pending moves or on the responses
before it. -/
theorem exec_ignores_history :
    lastResponse (exec i ⟨c, st, l, p, rs⟩) = lastResponse (exec i ⟨c, st, l, p', rs'⟩) ∧
      bufferAfter (exec i ⟨c, st, l, p, rs⟩) = bufferAfter (exec i ⟨c, st, l, p', rs'⟩) := by
  obtain ⟨st', r, hrun⟩ := st.run_completes i
  have hexec : ∀ p rs, exec i ⟨c, st, l, p, rs⟩ = perform ⟨c, st, l, p, rs⟩ (.done st' r) := fun p rs =>
    (exec_eq_perform i _).trans (congrArg (perform _) hrun)
  rw [hexec, hexec]
  cases l with
  | beforeReset => simp only [perform_beforeReset, and_self]
  | ready => simp [perform_done, lastResponse, bufferAfter]

end history

/-- Settles O24: the states it compares have one store and one lifecycle. -/
theorem historyDoesNotMatter : Obligations.HistoryDoesNotMatter := fun s j p r =>
  ⟨(exec_ignores_history j s.store s.lifecycle p s.pending r []).1,
    (exec_ignores_history j s.store s.lifecycle p s.pending r s.responses).2⟩

/-! ### What every step keeps -/

/-- Everything a step that answers a next state can have done: nothing, the reset event, or the controller's step on the
word presented (R11, R48, R172). -/
theorem step_next_cases {s t : State} (h : step s = .next t) :
    (s.pending = [] ∧ t = s) ∨
    (∃ rest, s.pending = .reset :: rest ∧ t = resetEvent { s with pending := rest }) ∨
    (∃ w rest st' r, s.pending = .command w :: rest ∧ s.lifecycle = .ready ∧ s.store.step w = .done st' r ∧
      t = State.after { s with pending := rest } st' r) := by
  rcases step_cases s with ⟨hp, hstep⟩ | ⟨rest, hp, hstep⟩ | ⟨w, rest, hp, _⟩
  · exact .inl ⟨hp, Host.Outcome.next.inj (h.symm.trans hstep)⟩
  · exact .inr (.inl ⟨rest, hp, Host.Outcome.next.inj (h.symm.trans hstep)⟩)
  · rw [step_command hp] at h
    obtain ⟨hready, st', r, hdone, ht⟩ := perform_eq_next.mp h
    exact .inr (.inr ⟨w, rest, st', r, hp, hready, hdone, ht.symm⟩)

/-- R74: a word decodes only to commands that have a word. -/
theorem decode_instr_wellFormed {w : CommandWord} {i : Instr} (h : decode w = .instr i) : i.WellFormed := by
  have hindex : i.index = indexField w := by
    unfold decode at h
    split at h <;> cases h <;> rfl
  rw [Instr.WellFormed, hindex]
  exact indexField_fits w

section legal
variable {c : Config}

theorem legalResponse_ok (v : Byte) : LegalResponse c (Response.ok v) := .inl ⟨rfl, rfl, rfl, rfl⟩

theorem legalResponse_illegalCommand : LegalResponse c Response.illegalCommand :=
  .inr (.inr ⟨rfl, rfl, rfl, rfl, rfl⟩)

/-- R142: the response to an index that fits its field and is out of range for its unit is legal. -/
theorem legalResponse_outOfRange {u : IndexUnit} {k : Int} (hfits : IndexFits k)
    (hout : k < 0 ∨ (boundOf c u : Int) ≤ k) : LegalResponse c (Response.outOfRange u k (boundOf c u)) := by
  refine .inr (.inl ⟨rfl, rfl, hfits, hout, ?_⟩)
  cases u with
  | bit => exact .inl ⟨rfl, by simp only [Response.outOfRange, boundOf_bit]; omega⟩
  | byte => exact .inr ⟨rfl, rfl⟩

/-- R27, R68: the controller answers every word with a legal response. -/
theorem Store.step_response_legal {st st' : Store c} {w : CommandWord} {r : Response} (h : st.step w = .done st' r) :
    LegalResponse c r := by
  rcases storeStep_cases w st with ⟨i, hdec, hstep⟩ | ⟨_, _, hstep⟩
  · rw [hstep] at h
    by_cases hout : i.index < 0 ∨ (boundOf c i.unit : Int) ≤ i.index
    · rw [st.run_outOfRange hout] at h
      cases h
      exact legalResponse_outOfRange (decode_instr_wellFormed hdec) hout
    · obtain ⟨_, v, hrun⟩ := st.run_inRange (i := i) (n := i.index.toNat) (by omega) (by omega)
      rw [hrun] at h
      cases h
      exact legalResponse_ok v
  · rw [hstep] at h
    cases h
    exact legalResponse_illegalCommand

end legal

/-- Settles O44: a step adds no response or one the controller answered a word with. -/
theorem stepKeepsResponsesLegal : Obligations.StepKeepsResponsesLegal := by
  intro s t hlegal hstep
  rcases step_next_cases hstep with ⟨_, rfl⟩ | ⟨_, _, rfl⟩ | ⟨w, rest, st', r, _, _, hdone, rfl⟩
  · exact hlegal
  · exact hlegal
  · intro x hx
    rcases List.mem_append.mp hx with hx | hx
    · exact hlegal x hx
    · rw [List.mem_singleton.mp hx]
      exact Store.step_response_legal hdone

/-- R21: no step changes the configuration. -/
theorem step_cfg {s t : State} (h : step s = .next t) : t.cfg = s.cfg := by
  rcases step_next_cases h with ⟨_, rfl⟩ | ⟨_, _, rfl⟩ | ⟨_, _, _, _, _, _, _, rfl⟩ <;> rfl

/-- Settles O46: the step keeps the configuration, and no store has a byte at or above its capacity. -/
theorem capacityNeverChanges : Obligations.CapacityNeverChanges := by
  intro s t hstep
  have hcfg := step_cfg hstep
  refine ⟨hcfg, by rw [hcfg]; rfl, fun a ha => t.store.byteAt_outside ?_⟩
  rwa [hcfg]

/-- Settles O43: every buffer has the form for its own capacity, which is the one before the step. -/
theorem stepKeepsBufferWellFormed : Obligations.StepKeepsBufferWellFormed := by
  intro s t hstep
  have hcap : s.byteCapacity = t.byteCapacity := by
    rw [State.byteCapacity, State.byteCapacity, step_cfg hstep]
  refine ⟨bufferWf t, ?_⟩
  rw [hcap]
  exact bufferWf t

/-- A step with a reset pending is the reset event (R170). -/
theorem step_reset {s : State} {rest : List HostMove} (hp : s.pending = .reset :: rest) :
    step s = .next (resetEvent { s with pending := rest }) := by
  have hmove : takeMove s = some (.reset, { s with pending := rest }) := takeMove_eq_some.mpr ⟨rest, hp, rfl⟩
  rw [step, runMove, hmove]

/-- Settles O14: with no move to take, `runMove` answers the state itself. -/
theorem noMoveNoChange : Obligations.NoMoveNoChange := by
  intro s hp
  have hmove : takeMove s = none := by rw [takeMove, hp]
  rw [step, runMove, hmove]

/-! ### The state right after reset -/

/-- Settles O3: every byte of the zero store is 0x00, and every bit of 0x00 is 0. -/
theorem resetStateReadsZero : Obligations.ResetStateReadsZero :=
  fun c => ⟨fun k => Store.byteAt_zero (c := c) k, fun _ => readBit_zero _⟩

/-- Settles O42: the zero store is the one whose bytes below `N` are 0x00, and the reset event leaves it. -/
theorem resetStateIsTheAllZeroBuffer : Obligations.ResetStateIsTheAllZeroBuffer :=
  ⟨fun _ => ⟨rfl, rfl, rfl, fun _ => Store.eq_iff_byteAt⟩, rfl, fun _ _ hp => ⟨_, step_reset hp, rfl⟩⟩

/-- Settles O45: no response stands right after reset. -/
theorem resetHasNoIllegalResponse : Obligations.ResetHasNoIllegalResponse := by
  have hnone : ∀ c : Config, (State.resetOf c).ResponsesLegal := by
    intro c r hr
    rw [resetOf_responses] at hr
    exact absurd hr List.not_mem_nil
  exact ⟨hnone, hnone _⟩

end Sys2Proof.Machine
end

section
/-! Runs of the host's machine: a ready machine always has a step (R55), commands that share no byte change places without
anyone seeing it (R48), and so every merge of two requesters that share no byte is worth one after the other (R49, R176). -/

namespace Sys2Proof.Machine

/-! ### A ready machine always has a step -/

/-- R55: the step of a ready machine answers a ready machine with the first move taken, where there is one. -/
theorem step_ready {s : State} (hready : s.lifecycle = .ready) :
    ∃ t, step s = .next t ∧ t.lifecycle = .ready ∧ t.pending = s.pending.tail := by
  cases hp : s.pending with
  | nil => exact ⟨s, noMoveNoChange s hp, hready, hp⟩
  | cons m rest =>
    cases m with
    | reset => exact ⟨_, step_reset hp, rfl, rfl⟩
    | command w =>
      obtain ⟨st', r, _, hstep⟩ := stepIsTheControllerFunction.2 s w rest hready hp
      exact ⟨_, hstep, hready, rfl⟩

/-- Settles O48: a ready machine's step answers a ready machine, whatever is pending. -/
theorem readyStepAnswersReady : Obligations.ReadyStepAnswersReady :=
  fun _ hready _ => step_ready hready

/-- A run goes on for as long as the run after its first step does. -/
theorem neverStops_of_step {s u : State} (hstep : step s = .next u) (hu : NeverStops u) : NeverStops s := by
  intro k
  cases k with
  | zero => exact ⟨s, reaches_zero s⟩
  | succ k =>
    obtain ⟨t, hrun⟩ := hu k
    exact ⟨t, (reaches_succ hstep).mpr hrun⟩

/-- R55, by induction on the number of steps: readiness is the invariant that gives the next one. -/
theorem neverStops_of_ready {s : State} (hready : s.lifecycle = .ready) : NeverStops s := by
  intro k
  induction k generalizing s with
  | zero => exact ⟨s, reaches_zero s⟩
  | succ k ih =>
    obtain ⟨u, hstep, hready', _⟩ := step_ready hready
    obtain ⟨t, hrun⟩ := ih hready'
    exact ⟨t, (reaches_succ hstep).mpr hrun⟩

/-- Settles O49: readiness is kept by every step, and the reset event leaves a ready machine. -/
theorem resetMachineNeverStops : Obligations.ResetMachineNeverStops :=
  ⟨fun _ => neverStops_of_ready, fun _ _ hp => neverStops_of_step (step_reset hp) (neverStops_of_ready rfl)⟩

/-! ### A command reads and writes one byte -/

/-- The index of the command is in the valid range of its unit (R141), a matter of the configuration alone. -/
def InRangeFor (c : Config) (i : Instr) : Prop := 0 ≤ i.index ∧ i.index < (boundOf c i.unit : Int)

/-- The two commands do not address one byte; a command whose index is out of range addresses none (R43, R141). -/
def ByteDisjoint (c : Config) (i j : Instr) : Prop :=
  InRangeFor c i → InRangeFor c j → byteNumberOf i ≠ byteNumberOf j

/-- On a machine's configuration this is the condition on its indices. -/
theorem byteDisjoint_iff {i j : Instr} {s : State} :
    ByteDisjoint s.cfg i j ↔ (IndexInRange i s → IndexInRange j s → byteNumberOf i ≠ byteNumberOf j) := Iff.rfl

section controller
variable {c : Config} {i j : Instr}

theorem ByteDisjoint.symm (h : ByteDisjoint c i j) : ByteDisjoint c j i :=
  fun hj hi => (h hi hj).symm

/-- Writes of two different bytes give one store in either order (R48(c)). -/
theorem Store.setByteAt_comm (st : Store c) {a b : Nat} (ha : a < c.byteCapacity.val) (hb : b < c.byteCapacity.val)
    (hne : a ≠ b) (v w : Byte) :
    (st.setByteAt a ha v).setByteAt b hb w = (st.setByteAt b hb w).setByteAt a ha v := by
  refine Store.ext_of_read fun k => ?_
  simp only [Store.byteAt_setByteAt]
  by_cases hka : k = a
  · subst hka
    simp [hne]
  · simp [hka]

/-- A command out of range answers alike from every store and leaves it as it is (R87, R142). -/
theorem Store.run_of_not_inRangeFor (h : ¬ InRangeFor c i) : ∃ r, ∀ st : Store c, st.run i = .done st r := by
  refine ⟨_, fun st => st.run_outOfRange ?_⟩
  rw [InRangeFor] at h
  omega

/-- R43: a command in range replaces the byte it addresses by a function of that byte, and its answer is a function of that
byte too. -/
theorem Store.run_of_inRangeFor (h : InRangeFor c i) :
    ∃ (ha : byteNumberOf i < c.byteCapacity.val) (f g : Byte → Byte), ∀ st : Store c,
      st.run i = .done (st.setByteAt (byteNumberOf i) ha (f (st.byteAt (byteNumberOf i))))
        (Response.ok (g (st.byteAt (byteNumberOf i)))) := by
  obtain ⟨hnonneg, hlt⟩ := h
  obtain ⟨n, hn⟩ := Int.eq_ofNat_of_zero_le hnonneg
  have hlt : n < boundOf c i.unit := by omega
  cases i with
  | getBit k =>
    obtain rfl : k = n := hn
    exact ⟨bytePos_lt hlt, id, (readBit · (locate n).bitPos), fun st => (st.getBit_inRange hlt).trans
      (congrArg (Reply.done · (Response.ok (st.bitAt n))) (st.setByteAt_self (bytePos_lt hlt)).symm)⟩
  | setBit k =>
    obtain rfl : k = n := hn
    exact ⟨bytePos_lt hlt, (· ||| (locate n).mask), fun _ => 0, fun st => st.setBit_inRange hlt⟩
  | clearBit k =>
    obtain rfl : k = n := hn
    exact ⟨bytePos_lt hlt, (· &&& ~~~ (locate n).mask), fun _ => 0, fun st => st.clearBit_inRange hlt⟩
  | toggleBit k =>
    obtain rfl : k = n := hn
    exact ⟨bytePos_lt hlt, (· ^^^ (locate n).mask), fun b => readBit (b ^^^ (locate n).mask) (locate n).bitPos,
      fun st => st.toggleBit_inRange hlt⟩
  | setByte k v =>
    obtain rfl : k = n := hn
    exact ⟨hlt, fun _ => v, fun _ => 0, fun st => st.setByte_inRange hlt v⟩
  | getByte k =>
    obtain rfl : k = n := hn
    exact ⟨hlt, id, id, fun st => (st.getByte_inRange hlt).trans
      (congrArg (Reply.done · (Response.ok (st.byteAt n))) (st.setByteAt_self hlt).symm)⟩

/-- R48(c): two commands that share no byte change places, with the same store after them and each with its own response. -/
theorem Store.run_swap (hdis : ByteDisjoint c i j) {st st₁ st₂ : Store c} {r q : Response}
    (hi : st.run i = .done st₁ r) (hj : st₁.run j = .done st₂ q) :
    ∃ st', st.run j = .done st' q ∧ st'.run i = .done st₂ r := by
  by_cases hini : InRangeFor c i
  · by_cases hinj : InRangeFor c j
    · obtain ⟨ha, f, g, hruni⟩ := Store.run_of_inRangeFor hini
      obtain ⟨hb, f', g', hrunj⟩ := Store.run_of_inRangeFor hinj
      have hne := hdis hini hinj
      rw [hruni] at hi
      cases hi
      rw [hrunj, Store.byteAt_setByteAt, if_neg hne.symm] at hj
      cases hj
      refine ⟨_, hrunj st, ?_⟩
      rw [hruni, Store.byteAt_setByteAt, if_neg hne, Store.setByteAt_comm _ ha hb hne]
    · obtain ⟨r', hrunj⟩ := Store.run_of_not_inRangeFor hinj
      rw [hrunj] at hj
      cases hj
      exact ⟨st, hrunj st, hi⟩
  · obtain ⟨r', hruni⟩ := Store.run_of_not_inRangeFor hini
    rw [hruni] at hi
    cases hi
    exact ⟨st₂, hj, hruni st₂⟩

end controller

/-- The latest response is the one of the command just carried out (R30). -/
theorem after_getLast?_responses (s : State) (st : Store s.cfg) (r : Response) :
    (s.after st r).responses.getLast? = some r := by
  rw [after_responses, List.getLast?_concat]

/-- In a ready machine a command is what it is on the controller. -/
theorem exec_of_run {s : State} (hready : s.lifecycle = .ready) {i : Instr} {st' : Store s.cfg} {r : Response}
    (h : s.store.run i = .done st' r) : exec i s = .next (s.after st' r) := by
  rw [exec_eq_perform, h, perform_done hready]

/-- Settles O38: the two commands change places on the controller. -/
theorem differentBytesCommute : Obligations.DifferentBytesCommute := by
  intro s i j hready _ _ hne
  obtain ⟨st₁, r, hi⟩ := s.store.run_completes i
  obtain ⟨st₂, q, hj⟩ := st₁.run_completes j
  obtain ⟨st', hj', hi'⟩ := Store.run_swap (fun _ _ => hne) hi hj
  refine ⟨s.after st₁ r, (s.after st₁ r).after st₂ q, s.after st' q, (s.after st' q).after st₂ r,
    exec_of_run hready hi, exec_of_run (s := s.after st₁ r) hready hj, exec_of_run hready hj',
    exec_of_run (s := s.after st' q) hready hi', rfl, ?_, ?_⟩
  · rw [after_getLast?_responses]
    exact (after_getLast?_responses (s.after st' q) st₂ r).symm
  · rw [after_getLast?_responses s]
    exact after_getLast?_responses (s.after st₁ r) st₂ q

/-! ### The controller on a list of commands -/

/-- From the first store the controller carries out the commands, one after the other, with these responses, and the last
store is what they leave. -/
inductive Store.Answers {c : Config} : Store c → List Instr → Store c → List Response → Prop where
  | nil (st : Store c) : Answers st [] st []
  | cons {st st₁ st' : Store c} {i : Instr} {is : List Instr} {r : Response} {rs : List Response}
      (hrun : st.run i = .done st₁ r) (htail : Answers st₁ is st' rs) : Answers st (i :: is) st' (r :: rs)

section answers
variable {c : Config} {st st' st₁ st₂ : Store c} {is js : List Instr} {rs qs : List Response} {i : Instr} {r : Response}

theorem Store.exists_answers (st : Store c) (is : List Instr) : ∃ st' rs, st.Answers is st' rs := by
  induction is generalizing st with
  | nil => exact ⟨st, [], .nil st⟩
  | cons i is ih =>
    obtain ⟨st₁, r, hrun⟩ := st.run_completes i
    obtain ⟨st', rs, htail⟩ := ih st₁
    exact ⟨st', r :: rs, .cons hrun htail⟩

theorem Store.Answers.length_eq (h : st.Answers is st' rs) : rs.length = is.length := by
  induction h with
  | nil => rfl
  | cons _ _ ih => rw [List.length_cons, List.length_cons, ih]

theorem Store.Answers.append (h : st.Answers is st₁ rs) (h' : st₁.Answers js st₂ qs) :
    st.Answers (is ++ js) st₂ (rs ++ qs) := by
  induction h with
  | nil => exact h'
  | cons hrun _ ih => exact .cons hrun (ih h')

/-- R48(c), by induction on the list: a command that shares no byte with the commands after it may as well come last. -/
theorem Store.Answers.postpone (h : st₁.Answers js st₂ qs) (hdis : ∀ j ∈ js, ByteDisjoint c i j)
    (hrun : st.run i = .done st₁ r) : ∃ st', st.Answers js st' qs ∧ st'.run i = .done st₂ r := by
  induction h generalizing st with
  | nil => exact ⟨st, .nil st, hrun⟩
  | cons hj _ ih =>
    obtain ⟨hdisj, hdistail⟩ := List.forall_mem_cons.mp hdis
    obtain ⟨_, hj', hrun'⟩ := Store.run_swap hdisj hrun hj
    obtain ⟨st', htail, hlast⟩ := ih hdistail hrun'
    exact ⟨st', .cons hj' htail, hlast⟩

end answers

/-! ### The host's machine on a list of commands -/

/-- R74: a command that has a word is what its word decodes to. -/
theorem decode_encode {i : Instr} (hwf : i.WellFormed) : decode (encode i) = .instr i := by
  obtain ⟨_, _, hop, hdata, hindex⟩ : Laws.EncodedFields.Statement i :=
    Laws.encodedFields_of_opcode i (by cases i <;> simp [Instr.opcode])
  rw [decode, hop, hdata, hindex hwf]
  cases i <;> rfl

section reaches
variable {c : Config} {st st' : Store c} {is : List Instr} {rs : List Response}

/-- A step on the word of a command is that command on the controller. -/
theorem step_encode {i : Instr} {r : Response} (hwf : i.WellFormed) (hrun : st.run i = .done st' r)
    (rest : List HostMove) (rs₀ : List Response) :
    step ⟨c, st, .ready, .command (encode i) :: rest, rs₀⟩ = .next ⟨c, st', .ready, rest, rs₀ ++ [r]⟩ := by
  have hstep : st.step (encode i) = .done st' r := by rw [Store.step, decode_encode hwf]; exact hrun
  rw [step_command rfl]
  exact (congrArg (perform _) hstep).trans (perform_done rfl _ _)

theorem Store.Answers.reaches (h : st.Answers is st' rs) (hwf : ∀ i ∈ is, i.WellFormed) (rs₀ : List Response) :
    Reaches is.length ⟨c, st, .ready, is.map fun i => .command (encode i), rs₀⟩ ⟨c, st', .ready, [], rs₀ ++ rs⟩ := by
  induction h generalizing rs₀ with
  | nil st => rw [List.append_nil]; exact reaches_zero _
  | @cons _ _ _ _ _ r _ hrun _ ih =>
    obtain ⟨hwfi, hwftail⟩ := List.forall_mem_cons.mp hwf
    rw [List.append_cons]
    exact (reaches_succ (step_encode hwfi hrun _ rs₀)).mpr (ih hwftail (rs₀ ++ [r]))

/-- R11, R179: a ready machine with commands presented runs them as the controller does, and hands over the responses. -/
theorem reaches_presentAll {s : State} (hready : s.lifecycle = .ready) {st' : Store s.cfg}
    (h : s.store.Answers is st' rs) (hwf : ∀ i ∈ is, i.WellFormed) :
    Reaches is.length (presentAll s is) { s with store := st', pending := [], responses := s.responses ++ rs } := by
  obtain ⟨c, st, l, p, rs₀⟩ := s
  obtain rfl : l = .ready := hready
  exact h.reaches hwf rs₀

end reaches

/-! ### Merges of two requesters -/

section streams
variable {α : Type} {who w : Bool} {x : α} {zs : List (Bool × α)}

@[simp] theorem streamOf_nil : streamOf who ([] : List (Bool × α)) = [] := rfl

theorem streamOf_cons_same : streamOf who ((who, x) :: zs) = x :: streamOf who zs := by
  simp [streamOf]

theorem streamOf_cons_other (h : w ≠ who) : streamOf who ((w, x) :: zs) = streamOf who zs := by
  simp [streamOf, h]

theorem mem_of_mem_streamOf (h : x ∈ streamOf who zs) : (who, x) ∈ zs := by
  simpa [streamOf] using h

/-- Every entry of a merge comes from one of the two requesters. -/
theorem length_streamOf_add (who : Bool) (zs : List (Bool × α)) :
    (streamOf who zs).length + (streamOf (!who) zs).length = zs.length := by
  have hother : ∀ w who : Bool, (w == !who) = !(w == who) := by decide
  simp only [streamOf, List.length_map, hother]
  exact (List.length_eq_length_filter_add _).symm

end streams

/-- R49, R176, by induction on the merge: the commands of the other requester are postponed past those of `who`. So `who`
alone gets the responses the merge gives it, and the other one after it gets its own and leaves the store of the merge. -/
theorem Store.Answers.unmerge {c : Config} {st st' : Store c} (who : Bool) {zs : List (Bool × Instr)}
    {rs : List Response} (h : st.Answers (zs.map fun z => z.2) st' rs)
    (hdis : ∀ x ∈ streamOf who zs, ∀ y ∈ streamOf (!who) zs, ByteDisjoint c y x) :
    ∃ stw, st.Answers (streamOf who zs) stw (streamOf who ((zs.map fun z => z.1).zip rs)) ∧
      stw.Answers (streamOf (!who) zs) st' (streamOf (!who) ((zs.map fun z => z.1).zip rs)) := by
  induction zs generalizing st rs with
  | nil =>
    cases h
    exact ⟨_, .nil _, .nil _⟩
  | cons z zs ih =>
    obtain ⟨w, i⟩ := z
    cases h with
    | cons hrun htail =>
      simp only [List.map_cons, List.zip_cons_cons]
      by_cases hw : w = who
      · subst hw
        have hother : w ≠ !w := by cases w <;> decide
        simp only [streamOf_cons_same, streamOf_cons_other hother] at hdis ⊢
        obtain ⟨stw, hmine, hothers⟩ := ih htail (List.forall_mem_cons.mp hdis).2
        exact ⟨stw, .cons hrun hmine, hothers⟩
      · obtain rfl : w = !who := Bool.eq_not_of_ne hw
        simp only [streamOf_cons_same, streamOf_cons_other hw, List.forall_mem_cons] at hdis ⊢
        obtain ⟨stw, hmine, hothers⟩ := ih htail fun x hx => (hdis x hx).2
        obtain ⟨st₁, hmine', hlast⟩ := hmine.postpone (fun x hx => (hdis x hx).1) hrun
        exact ⟨st₁, hmine', .cons hlast hothers⟩

/-- Settles O53: the controller's run of the merge, seen as each requester's own run and as one run after the other. -/
theorem mergesOfByteDisjointStreamsAgree : Obligations.MergesOfByteDisjointStreamsAgree := by
  intro s zs hready hwf hdis
  have hwfStream : ∀ who, ∀ i ∈ streamOf who zs, i.WellFormed := fun who i hi => hwf _ (mem_of_mem_streamOf hi)
  have hdisOf : ∀ who, ∀ x ∈ streamOf who zs, ∀ y ∈ streamOf (!who) zs, ByteDisjoint s.cfg y x := by
    intro who x hx y hy
    cases who with
    | true => exact (byteDisjoint_iff.mpr (hdis x hx y hy)).symm
    | false => exact byteDisjoint_iff.mpr (hdis y hy x hx)
  obtain ⟨st', rs, hmerge⟩ := s.store.exists_answers (zs.map fun z => z.2)
  have hlen : rs.length = zs.length := by rw [hmerge.length_eq, List.length_map]
  have hrun := reaches_presentAll hready hmerge (List.forall_mem_map.mpr hwf)
  rw [List.length_map] at hrun
  refine ⟨_, rs, hrun, hlen, rfl, fun who => ?_, ?_⟩
  · obtain ⟨stw, hmine, _⟩ := hmerge.unmerge who (hdisOf who)
    exact ⟨_, reaches_presentAll hready hmine (hwfStream who), rfl⟩
  · obtain ⟨stw, hfirst, hsecond⟩ := hmerge.unmerge true (hdisOf true)
    have hboth := reaches_presentAll hready (hfirst.append hsecond)
      (List.forall_mem_append.mpr ⟨hwfStream true, hwfStream false⟩)
    rw [List.length_append, length_streamOf_add] at hboth
    exact ⟨_, hboth, rfl⟩

end Sys2Proof.Machine
end

section
/-! Command words as numbers: the weighted sum of their fields and the fields back from the word; and from it what the decoder
answers and what the decoder and the encoder make of each other (R61 to R65, R74). -/

namespace Sys2Proof

/-! ### The fields of a command word in plain arithmetic -/

/-- One word after another is a weighted sum (R9). -/
theorem toNat_append_eq_add {m n : Nat} (x : BitVec m) (y : BitVec n) :
    (x ++ y).toNat = x.toNat * 2 ^ n + y.toNat := by
  rw [BitVec.toNat_append, ← Nat.shiftLeft_add_eq_or_of_lt y.isLt, Nat.shiftLeft_eq]

/-- R9, R61: the command word is the weighted sum of its three fields. -/
theorem toNat_packCommand (op data : BitVec 8) (index : BitVec 64) :
    (packCommand op data index).toNat = op.toNat * 2 ^ 72 + data.toNat * 2 ^ 64 + index.toNat := by
  rw [packCommand, toNat_append_eq_add, toNat_append_eq_add]
  omega

section fields
variable (w : CommandWord)

theorem toNat_opField : (opField w).toNat = w.toNat / 2 ^ 72 := by
  rw [opField, BitVec.extractLsb'_toNat, Nat.shiftRight_eq_div_pow, Nat.mod_eq_of_lt (by have := w.isLt; omega)]

theorem toNat_dataField : (dataField w).toNat = w.toNat / 2 ^ 64 % 2 ^ 8 := by
  rw [dataField, BitVec.extractLsb'_toNat, Nat.shiftRight_eq_div_pow]

theorem toNat_indexBits : (indexBits w).toNat = w.toNat % 2 ^ 64 := by
  rw [indexBits, BitVec.extractLsb'_toNat, Nat.shiftRight_zero]

/-- R62: the index is the two's-complement reading of the low 64 bits. -/
theorem indexField_eq_ite : indexField w =
    if w.toNat % 2 ^ 64 < 2 ^ 63 then ((w.toNat % 2 ^ 64 : Nat) : Int) else ((w.toNat % 2 ^ 64 : Nat) : Int) - 2 ^ 64 := by
  rw [indexField, BitVec.toInt_eq_toNat_cond, toNat_indexBits]
  split <;> split <;> omega

end fields

/-! ### The decoder -/

/-- R64: the decoder as a choice by the opcode alone. -/
theorem decode_eq_ite (w : CommandWord) : decode w =
    if (opField w).toNat = 1 then .instr (.getBit (indexField w))
    else if (opField w).toNat = 2 then .instr (.setBit (indexField w))
    else if (opField w).toNat = 3 then .instr (.clearBit (indexField w))
    else if (opField w).toNat = 4 then .instr (.toggleBit (indexField w))
    else if (opField w).toNat = 5 then .instr (.setByte (indexField w) (dataField w))
    else if (opField w).toNat = 6 then .instr (.getByte (indexField w))
    else .illegalOpcode (opField w) := by
  unfold decode
  split <;> simp_all

/-- Everything the decoder can answer: the command of a known opcode, with the word's index and, for SET_BYTE, its data; or an
illegal command (R60 to R65). -/
theorem decode_cases (w : CommandWord) :
    (1 ≤ (opField w).toNat ∧ (opField w).toNat ≤ 6 ∧ ∃ i, decode w = .instr i ∧ i.opcode = opField w ∧
      i.index = indexField w ∧ i.data = if opField w = 0x05 then dataField w else 0) ∨
    (¬ (1 ≤ (opField w).toNat ∧ (opField w).toNat ≤ 6) ∧ decode w = .illegalOpcode (opField w)) := by
  have hop : ∀ n, (opField w).toNat = n → opField w = BitVec.ofNat 8 n := fun n h => by simp [← h]
  unfold decode
  split
  case h_1 h | h_2 h | h_3 h | h_4 h | h_5 h | h_6 h =>
    exact .inl ⟨by omega, by omega, _, rfl, (hop _ h).symm, rfl, by rw [hop _ h]; rfl⟩
  case h_7 h1 h2 h3 h4 h5 h6 =>
    simp only [imp_false] at h1 h2 h3 h4 h5 h6
    exact .inr ⟨by omega, rfl⟩

/-- Settles O6: the fields of the word are its quotients and remainders, and the decoder selects by the first of them. -/
theorem decoderFollowsOpcodeMap : Obligations.DecoderFollowsOpcodeMap := by
  intro w
  have hop : opField w = BitVec.ofNat 8 (w.toNat / 2 ^ 72) := by
    rw [← toNat_opField, BitVec.ofNat_toNat, BitVec.setWidth_eq]
  have hdata : dataField w = BitVec.ofNat 8 (w.toNat / 2 ^ 64 % 2 ^ 8) := by
    rw [← toNat_dataField, BitVec.ofNat_toNat, BitVec.setWidth_eq]
  rw [decode_eq_ite, toNat_opField, indexField_eq_ite, hop, hdata]

/-- Settles O7: the encoded word carries the fields the decoder reads. -/
theorem decodeEncodeRoundTrip : Obligations.DecodeEncodeRoundTrip := fun _ => Machine.decode_encode

/-- R74: encoding what a word decodes to gives the word's opcode and index back, and its data where the command has some. -/
theorem encode_of_decode {w : CommandWord} {i : Instr} (h : decode w = .instr i) :
    encode i = packCommand (opField w) (if opField w = 0x05 then dataField w else 0) (indexBits w) := by
  rcases decode_cases w with ⟨_, _, j, hdec, hop, hindex, hdata⟩ | ⟨_, hdec⟩
  · obtain rfl : j = i := Decoded.instr.inj (hdec.symm.trans h)
    rw [encode, hop, hindex, hdata, indexField, BitVec.ofInt_toInt]
  · rw [hdec] at h
    cases h

/-- Settles O8: with SET_BYTE's opcode the encoding has all three fields of the word, with another it has 0 for data. -/
theorem encodeDecodeClearsIgnoredData : Obligations.EncodeDecodeClearsIgnoredData := by
  intro w i h
  have hop : opField w = 0x05 ↔ w.toNat / 2 ^ 72 = 0x05 := by
    rw [← toNat_opField]
    exact BitVec.toNat_inj.symm
  refine ⟨Machine.decode_instr_wellFormed h, fun h5 => ?_, fun h5 => ?_⟩
  · rw [encode_of_decode h, if_pos (hop.mpr h5), packCommand_fields]
  · rw [encode_of_decode h, if_neg (mt hop.mp h5), toNat_packCommand, toNat_opField, toNat_indexBits]
    simp

/-- Settles O9: the data field stands in the choice of SET_BYTE only. -/
theorem ignoredDataDoesNotMatter : Obligations.IgnoredDataDoesNotMatter := by
  intro op d d' index h5
  have hop : op.toNat ≠ 5 := fun h => h5 (BitVec.eq_of_toNat_eq h)
  simp only [decode_eq_ite, indexField, opField_packCommand, indexBits_packCommand, if_neg hop]

/-- Settles O10, by running the decoder on the seven words. -/
theorem writtenWordsDecode : Obligations.WrittenWordsDecode := by
  refine ⟨?_, ?_, ?_, ?_, ?_, ?_, ?_⟩ <;> decide

end Sys2Proof
end

section
/-! What comes of a presented word by what it decodes to (R65, R67, R143), the words the host adapter makes (R72), responses
read back from their words (R67, R75), and the run of DUMP (R71). -/

namespace Sys2Proof.Machine

/-! ### A presented word -/

section controller
variable {c : Config} {st st' : Store c} {w : CommandWord} {i : Instr} {r : Response}

theorem Store.step_of_decode_instr (h : decode w = .instr i) : st.step w = st.run i := by
  rw [Store.step, h]

theorem Store.step_of_decode_illegalOpcode {op : BitVec 8} (h : decode w = .illegalOpcode op) :
    st.step w = .done st Response.illegalCommand := by
  rw [Store.step, h]
  rfl

/-- R143: a decoded command is answered OK or OutOfRange, never IllegalCommand. -/
theorem Store.run_status_ne_illegalCommand (h : st.run i = .done st' r) : r.status ≠ statusIllegalCommand := by
  by_cases hout : i.index < 0 ∨ (boundOf c i.unit : Int) ≤ i.index
  · rw [st.run_outOfRange hout] at h
    cases h
    exact (by decide : statusOutOfRange ≠ statusIllegalCommand)
  · obtain ⟨_, v, hrun⟩ := st.run_inRange (i := i) (n := i.index.toNat) (by omega) (by omega)
    rw [hrun] at h
    cases h
    exact (by decide : statusOk ≠ statusIllegalCommand)

end controller

/-- Settles O11: the step carries out the controller's step on the word, which is the decoded command. -/
theorem stepRunsDecodedCommand : Obligations.StepRunsDecodedCommand := by
  intro s w rest i hp hdec
  rw [step_command hp, Store.step_of_decode_instr hdec]
  exact (exec_eq_perform i { s with pending := rest }).symm

/-- Settles O12: the decoder answers an illegal command for exactly the unknown opcodes. -/
theorem illegalCommandExactlyWhenOpcodeUnknown : Obligations.IllegalCommandExactlyWhenOpcodeUnknown := by
  intro s w rest hready hp
  obtain ⟨st', r, hdone, hstep⟩ := stepIsTheControllerFunction.2 s w rest hready hp
  rw [← toNat_opField]
  rcases decode_cases w with ⟨hlow, hhigh, i, hdec, _⟩ | ⟨hunknown, hdec⟩
  · rw [if_pos ⟨hlow, hhigh⟩]
    rw [Store.step_of_decode_instr hdec] at hdone
    exact ⟨_, r, hstep, rfl, Store.run_status_ne_illegalCommand hdone⟩
  · rw [if_neg hunknown, hstep]
    rw [Store.step_of_decode_illegalOpcode hdec] at hdone
    cases hdone
    rfl

/-- Settles O13: the controller answers every word with one response, which the host's step adds. -/
theorem everyCommandGetsOneResponse : Obligations.EveryCommandGetsOneResponse := by
  intro s w rest hready hp
  obtain ⟨st', r, _, hstep⟩ := stepIsTheControllerFunction.2 s w rest hready hp
  exact ⟨_, r, hstep, rfl, hready, rfl, rfl⟩

/-! ### The host adapter -/

section adapter
variable {i : Instr} (s : State)

theorem adaptInstr_of_fits (h : IndexFits i.index) : adaptInstr i s = .word (encode i) := by
  rw [adaptInstr, if_pos h]

theorem adaptInstr_of_not_fits (h : ¬ IndexFits i.index) :
    adaptInstr i s = .report (Response.outOfRange i.unit i.index (s.boundOf i.unit)) := by
  rw [adaptInstr, if_neg h]

/-- Every word the adapter makes is that of a command whose index fits (R72(a)). -/
theorem adaptInstr_eq_word {w : CommandWord} : adaptInstr i s = .word w ↔ i.WellFormed ∧ encode i = w := by
  by_cases h : IndexFits i.index
  · rw [adaptInstr_of_fits s h, Adapted.word.injEq]
    exact ⟨fun hw => ⟨h, hw⟩, And.right⟩
  · rw [adaptInstr_of_not_fits s h]
    exact ⟨nofun, fun hw => absurd hw.1 h⟩

/-- The adapter's own report, written out: the unit's code and the unit's bound (R69, R72(a), R142). -/
theorem outOfRange_eq_fields (u : IndexUnit) (k : Int) : Response.outOfRange u k (s.boundOf u) =
    ⟨0x01, 0, if u = .bit then 0x00 else 0x01, k,
      if u = .bit then 8 * (s.cfg.byteCapacity.val : Int) else (s.cfg.byteCapacity.val : Int)⟩ := by
  cases u with
  | bit =>
    have hbound : ((s.cfg.byteCapacity.val * 8 : Nat) : Int) = 8 * (s.cfg.byteCapacity.val : Int) := by omega
    exact congrArg (Response.mk 0x01 0 0x00 k) hbound
  | byte => rfl

/-- R6, R72(a): every index that does not fit the field is out of range for both units, since `8N < 2^63`. -/
theorem outOfRange_of_not_fits {k : Int} (h : ¬ IndexFits k) :
    k < 0 ∨ (8 * (s.cfg.byteCapacity.val : Int) ≤ k ∧ (s.cfg.byteCapacity.val : Int) ≤ k) := by
  have hcap : s.cfg.byteCapacity.val < 2 ^ 60 := s.cfg.byteCapacity.isLt
  rw [IndexFits] at h
  omega

end adapter

/-- A value from 0 to 255 is the value of its byte (R72(b)). -/
theorem toNat_ofInt_of_byte {v : Int} (h0 : 0 ≤ v) (h255 : v ≤ 255) : ((BitVec.ofInt 8 v).toNat : Int) = v := by
  rw [BitVec.toNat_ofInt]
  omega

/-- Settles O26: a word is made exactly of a command that has one, and a byte exactly of a value that is one. -/
theorem adapterNeverTruncates : Obligations.AdapterNeverTruncates := by
  intro s
  refine ⟨fun i w h => ?_, fun i h => adaptInstr_of_fits s h, fun i h => ?_, fun k h => outOfRange_of_not_fits s h,
    fun k v _ h => ?_, fun k v h0 h255 => ?_, fun k => ⟨rfl, rfl, rfl, rfl, rfl⟩⟩
  · obtain ⟨hwf, rfl⟩ := (adaptInstr_eq_word s).mp h
    exact decode_encode hwf
  · rw [adaptInstr_of_not_fits s h, outOfRange_eq_fields]
  · rw [adapt, if_neg (by omega)]
  · exact ⟨BitVec.ofInt 8 v, toNat_ofInt_of_byte h0 h255, by rw [adapt, if_pos ⟨h0, h255⟩]⟩

/-! ### Responses as words -/

/-- The integer kept modulo 2^64 is its remainder (R75). -/
theorem toNat_ofInt_eq_emod (k : Int) : ((BitVec.ofInt 64 k).toNat : Int) = k % 2 ^ 64 := by
  rw [BitVec.toNat_ofInt]
  omega

section pack
variable (r : Response)

/-- R75: the response word is the weighted sum of its five fields. -/
theorem toNat_pack : r.pack.toNat = r.status.toNat * 2 ^ 144 + r.rdata.toNat * 2 ^ 136 + r.unit.toNat * 2 ^ 128 +
    (BitVec.ofInt 64 r.errIndex).toNat * 2 ^ 64 + (BitVec.ofInt 64 r.errBound).toNat := by
  simp only [Response.pack, toNat_append_eq_add]
  omega

/-- R67: each of the five fields stands at its place in the word. -/
theorem extractLsb'_pack :
    r.pack.extractLsb' 144 8 = r.status ∧ r.pack.extractLsb' 136 8 = r.rdata ∧ r.pack.extractLsb' 128 8 = r.unit ∧
      r.pack.extractLsb' 64 64 = BitVec.ofInt 64 r.errIndex ∧ r.pack.extractLsb' 0 64 = BitVec.ofInt 64 r.errBound := by
  have hstatus := r.status.isLt
  have hrdata := r.rdata.isLt
  have hunit := r.unit.isLt
  have hindex := (BitVec.ofInt 64 r.errIndex).isLt
  have hbound := (BitVec.ofInt 64 r.errBound).isLt
  refine ⟨?_, ?_, ?_, ?_, ?_⟩ <;> apply BitVec.eq_of_toNat_eq <;>
    rw [BitVec.extractLsb'_toNat, Nat.shiftRight_eq_div_pow, toNat_pack] <;> omega

end pack

/-- Settles O40: the two integers kept modulo 2^64 are their remainders. -/
theorem packedResponseLayout : Obligations.PackedResponseLayout := by
  refine ⟨fun r => ?_, by decide, by decide, by decide, by decide⟩
  rw [toNat_pack, ← toNat_ofInt_eq_emod r.errIndex, ← toNat_ofInt_eq_emod r.errBound]
  norm_cast

/-- R67: a response is read back whole from its word when both its integers fit their fields. -/
theorem unpack_pack {r : Response} (hindex : IndexFits r.errIndex) (hbound : IndexFits r.errBound) :
    Response.unpack r.pack = r := by
  obtain ⟨h1, h2, h3, h4, h5⟩ := extractLsb'_pack r
  rw [Response.unpack, h1, h2, h3, h4, h5, toInt_ofInt_of_fits hindex, toInt_ofInt_of_fits hbound]

/-- R27: both integers of a legal response fit their fields, the bound because `8N < 2^63`. -/
theorem LegalResponse.fits {c : Config} {r : Response} (h : LegalResponse c r) :
    IndexFits r.errIndex ∧ IndexFits r.errBound := by
  have hcap : c.byteCapacity.val < 2 ^ 60 := c.byteCapacity.isLt
  rcases h with ⟨_, _, hindex, hbound⟩ | ⟨_, _, hfits, _, ⟨_, hbound⟩ | ⟨_, hbound⟩⟩ | ⟨_, _, _, hindex, hbound⟩
  · rw [hindex, hbound]
    decide
  · exact ⟨hfits, by rw [IndexFits, hbound]; omega⟩
  · exact ⟨hfits, by rw [IndexFits, hbound]; omega⟩
  · rw [hindex, hbound]
    decide

/-- Settles O41: the two integers of a legal response fit. -/
theorem responseWordRoundTrip : Obligations.ResponseWordRoundTrip :=
  fun _ _ h => unpack_pack h.fits.1 h.fits.2

/-! ### Dumping the buffer -/

section dump
variable {c : Config} {st st' : Store c} {is : List Instr} {rs : List Response}

/-- R11, R179: commands presented before other moves run as the controller runs them, and leave those moves. -/
theorem Store.Answers.reaches_before (h : st.Answers is st' rs) (hwf : ∀ i ∈ is, i.WellFormed) (rest : List HostMove)
    (rs₀ : List Response) :
    Reaches is.length ⟨c, st, .ready, (is.map fun i => .command (encode i)) ++ rest, rs₀⟩
      ⟨c, st', .ready, rest, rs₀ ++ rs⟩ := by
  induction h generalizing rs₀ with
  | nil st => rw [List.append_nil]; exact reaches_zero _
  | @cons _ _ _ _ _ r _ hrun _ ih =>
    obtain ⟨hwfi, hwftail⟩ := List.forall_mem_cons.mp hwf
    rw [List.append_cons]
    exact (reaches_succ (step_encode hwfi hrun _ rs₀)).mpr (ih hwftail (rs₀ ++ [r]))

/-- R121: reading bytes below `N` one after the other answers each of them and leaves the store. -/
theorem Store.answers_getBytes (st : Store c) {ks : List Nat} (hks : ∀ k ∈ ks, k < c.byteCapacity.val) :
    st.Answers (ks.map fun k : Nat => .getByte k) st (ks.map fun k => Response.ok (st.byteAt k)) := by
  induction ks with
  | nil => exact .nil st
  | cons k ks ih =>
    obtain ⟨hk, htail⟩ := List.forall_mem_cons.mp hks
    exact .cons (st.getByte_inRange hk) (ih htail)

/-- A byte index below `N` fits the index field (R6). -/
theorem getByte_wellFormed {k : Nat} (hk : k < c.byteCapacity.val) : (Instr.getByte k).WellFormed := by
  have hcap : c.byteCapacity.val < 2 ^ 60 := c.byteCapacity.isLt
  simp only [Instr.WellFormed, IndexFits, Instr.index]
  omega

end dump

/-- Settles O52: DUMP presents GET_BYTE of every byte below `N`, which the controller answers one after the other. -/
theorem dumpAnswersTheWholeBuffer : Obligations.DumpAnswersTheWholeBuffer := by
  intro s rest hready hp
  obtain ⟨c, st, l, p, rs₀⟩ := s
  obtain rfl : l = .ready := hready
  obtain rfl : p = pseudoDump c.byteCapacity.val ++ rest := hp
  have hrange : ∀ k ∈ List.range c.byteCapacity.val, k < c.byteCapacity.val := fun _ => List.mem_range.mp
  have hwf : ∀ i ∈ (List.range c.byteCapacity.val).map fun k : Nat => Instr.getByte k, i.WellFormed :=
    List.forall_mem_map.mpr fun k hk => getByte_wellFormed (hrange k hk)
  have hrun := (st.answers_getBytes hrange).reaches_before hwf rest rs₀
  rwa [List.length_map, List.length_range, List.map_map] at hrun

end Sys2Proof.Machine
end

section
/-! The index decoder: splitting an index into byte and offset (R82, R86), the masks (R84), the hardware form (R83), the two
forms of reading a bit (R85), and the controller of capacity 0, for which no index is in range (R88). -/

namespace Sys2Proof.Machine

/-! ### Splitting an index -/

@[simp] theorem locate_bytePos (i : Nat) : (locate i).bytePos = i / 8 := rfl

/-- The bit position counts from the low end of the byte, the offset from the high end (R8, R82). -/
theorem locate_bitPos (i : Nat) : (locate i).bitPos = 7 - i % 8 := rfl

/-- R82: the offset in store numbering, back from the bit position. -/
@[simp] theorem offset_locate (i : Nat) : 7 - (locate i).bitPos = i % 8 := by
  rw [locate_bitPos]
  omega

/-- R84, R86: the masks of two bit positions have no bit in common. -/
theorem maskOf_and_maskOf {p q : Nat} (hp : p < 8) (hq : q < 8) (hne : q ≠ p) : maskOf p &&& maskOf q = 0 := by
  rw [and_maskOf_eq_zero_iff _ hq, getLsbD_maskOf hp]
  exact decide_eq_false hne

/-- Settles O30: quotient and remainder by 8 determine the index, so two indices of one byte differ in their bit position. -/
theorem locateIsOneToOne : Obligations.LocateIsOneToOne := by
  intro n
  refine ⟨fun i hi => ?_, fun k hk o ho => ?_, fun i j hne => ?_⟩
  · rw [offset_locate, locate_bytePos]
    omega
  · rw [offset_locate, locate_bytePos]
    omega
  · by_cases hbyte : (locate i).bytePos = (locate j).bytePos
    · have hpos : (locate j).bitPos ≠ (locate i).bitPos := fun hpos => hne (locate_injective hbyte hpos.symm)
      exact .inr (maskOf_and_maskOf (bitPos_lt i) (bitPos_lt j) hpos)
    · exact .inl hbyte

/-- Settles O27, by running through the eight offsets, on which alone the row depends. -/
theorem maskTable : Obligations.MaskTable := by
  intro i
  have hoffset : i % 8 < 8 := Nat.mod_lt i (by decide)
  rw [locate_mask, locate_bitPos]
  generalize i % 8 = o at hoffset
  revert o
  decide

/-- Settles O29: both forms are 1 exactly when the byte's bit at the addressed position is set. -/
theorem readBitFormsAgree : Obligations.ReadBitFormsAgree := by
  intro b i
  have hset : b &&& (locate i).mask ≠ 0 ↔ b.getLsbD (locate i).bitPos = true := by
    rw [locate_mask, ne_eq, and_maskOf_eq_zero_iff b (bitPos_lt i), Bool.not_eq_false]
  rw [readBit_eq]
  exact if_congr hset.symm rfl rfl

/-! ### The hardware form -/

section hardware
variable (v : BitVec 64)

/-- `index[63:3]` is the quotient by 8 (R83). -/
theorem toNat_extractLsb'_bytePos : (v.extractLsb' 3 61).toNat = v.toNat / 8 := by
  rw [BitVec.extractLsb'_toNat, Nat.shiftRight_eq_div_pow, Nat.mod_eq_of_lt (by have := v.isLt; omega)]

/-- `index[2:0]` is the remainder by 8 (R83). -/
theorem toNat_extractLsb'_offset : (v.extractLsb' 0 3).toNat = v.toNat % 8 := by
  rw [BitVec.extractLsb'_toNat, Nat.shiftRight_zero]

/-- R83: on the bits of the word, read as an unsigned number, the slices give what the division gives. -/
theorem locateHardware_eq_locate : locateHardware v = locate v.toNat := by
  have hoffset : v.toNat % 8 < 8 := Nat.mod_lt _ (by decide)
  have hbit : (~~~ v.extractLsb' 0 3).toNat = 7 - v.toNat % 8 := by
    rw [BitVec.toNat_not, toNat_extractLsb'_offset]
  rw [locateHardware, hbit, toNat_extractLsb'_bytePos, toNat_extractLsb'_offset, ushiftRight_eq_maskOf _ hoffset]
  rfl

end hardware

/-- Settles O28: an index that is not negative is its own unsigned reading. -/
theorem hardwareLocateAgrees : Obligations.HardwareLocateAgrees := by
  intro v hv
  have hunsigned : v.toInt.toNat = v.toNat := by
    rw [BitVec.toInt_eq_toNat_cond] at hv ⊢
    split at hv <;> omega
  rw [hunsigned, locateHardware_eq_locate]

/-! ### Capacity 0 -/

section zeroCapacity
variable {c : Config} (hzero : c.byteCapacity.val = 0)
include hzero

/-- R88: both units have bound 0. -/
theorem boundOf_eq_zero (u : IndexUnit) : boundOf c u = 0 := by
  cases u with
  | bit => rw [boundOf_bit, hzero, Nat.zero_mul]
  | byte => rw [boundOf_byte, hzero]

/-- R88: no index is in range, so every command answers OutOfRange with bound 0. -/
theorem Store.run_of_zeroCapacity (st : Store c) (i : Instr) :
    st.run i = .done st (Response.outOfRange i.unit i.index 0) := by
  have hbound := boundOf_eq_zero hzero i.unit
  rw [st.run_outOfRange (i := i) (by omega), hbound]

/-- R88: every word is answered with one of the two errors, and the store stays. -/
theorem Store.step_of_zeroCapacity (st : Store c) (w : CommandWord) : ∃ r, st.step w = .done st r ∧
    ((r.status = statusOutOfRange ∧ r.errBound = 0) ∨ r.status = statusIllegalCommand) := by
  rcases storeStep_cases w st with ⟨i, _, hstep⟩ | ⟨_, _, hstep⟩
  · rw [hstep, st.run_of_zeroCapacity hzero i]
    exact ⟨_, rfl, .inl ⟨rfl, rfl⟩⟩
  · exact ⟨_, hstep, .inr rfl⟩

/-- R88: the buffer of no bytes has no cell, since every cell's address is below the capacity. -/
theorem Store.cells_of_zeroCapacity (st : Store c) : st.cells = [] :=
  List.eq_nil_iff_forall_not_mem.mpr fun d hd => by
    have hlt := (st.canonical.2 d hd).1
    omega

end zeroCapacity

/-- Settles O25: the controller fails every command and answers every word with an error, and its buffer has no cell. -/
theorem zeroCapacityAnswersEveryCommand : Obligations.ZeroCapacityAnswersEveryCommand := by
  intro s hready hzero
  refine ⟨fun i => ?_, fun w rest hp => ?_, s.store.cells_of_zeroCapacity hzero⟩
  · have hfields : Response.outOfRange i.unit i.index 0 =
        ⟨0x01, 0, if i.unit = .bit then 0x00 else 0x01, i.index, 0⟩ := by
      cases i.unit <;> rfl
    rw [exec_of_run hready (s.store.run_of_zeroCapacity hzero i), hfields]
    rfl
  · obtain ⟨r, hdone, herror⟩ := s.store.step_of_zeroCapacity hzero w
    refine ⟨State.after { s with pending := rest } s.store r, r, ?_, rfl, rfl, herror⟩
    rw [step_command hp, hdone]
    exact perform_done (s := { s with pending := rest }) hready s.store r

end Sys2Proof.Machine
end

section
/-! The four bit commands in the host's machine (R100 to R103, R108) and their laws (R104 to R107). A store is decided by its
`8N` bits, so each law is an equation on the array of bits (R29). -/

namespace Sys2Proof.Machine

/-! ### Decoding a bit command -/

/-- R62: the index is the low 64 bits of the word's number, read as a signed number. -/
theorem indexField_eq_toInt_ofNat (w : CommandWord) : indexField w = (BitVec.ofNat 64 w.toNat).toInt := by
  have hbits : indexBits w = BitVec.ofNat 64 w.toNat :=
    BitVec.eq_of_toNat_eq (by rw [toNat_indexBits, BitVec.toNat_ofNat])
  rw [indexField, hbits]

/-- R64: the commands with the first four opcodes are those whose index is a bit index. -/
theorem unit_eq_bit_iff {i : Instr} : i.unit = .bit ↔ i.opcode.toNat ≤ 4 := by
  cases i <;> simp [Instr.unit, Instr.opcode]

/-- R62, R64: a word with the opcode and the index of a bit command decodes to it, whatever its data field holds. -/
theorem decode_eq_bitCommand {w : CommandWord} {i : Instr} (hunit : i.unit = .bit)
    (hop : w.toNat / 2 ^ 72 = i.opcode.toNat) (hindex : (BitVec.ofNat 64 w.toNat).toInt = i.index) :
    decode w = .instr i := by
  rw [decode_eq_ite, toNat_opField, hop, indexField_eq_toInt_ofNat, hindex]
  cases i with
  | getBit k | setBit k | clearBit k | toggleBit k => rfl
  | setByte k v | getByte k => cases hunit

/-! ### Ranges, masks and bits in plain arithmetic -/

/-- R7, R141: the range of a bit index is `0 .. 8N - 1`. -/
theorem lt_boundOf_bit {c : Config} {n : Nat} : n < boundOf c .bit ↔ n < 8 * c.byteCapacity.val := by
  rw [boundOf_bit, Nat.mul_comm]

/-- R83, R84: the mask of an index is the highest bit shifted down by its offset. -/
theorem locate_mask_eq_ushiftRight (i : Nat) : (locate i).mask = 0x80#8 >>> (i % 8) := by
  rw [ushiftRight_eq_maskOf _ (Nat.mod_lt i (by decide))]
  rfl

/-- The complement of a bit in plain arithmetic (R103). -/
theorem one_sub_readBit (v : Byte) (p : Nat) : 1 - readBit v p = BitVec.ofNat 8 (1 - v.toNat / 2 ^ p % 2) := by
  rw [readBit_eq_ofNat]
  rcases Nat.mod_two_eq_zero_or_one (v.toNat / 2 ^ p) with h | h <;> rw [h] <;> rfl

/-- R103: after the flip the addressed bit is the complement of the old one. -/
theorem readBit_xor_locate (v : Byte) (i : Nat) :
    readBit (v ^^^ (locate i).mask) (locate i).bitPos = 1 - readBit v (locate i).bitPos := by
  rw [locate_mask, readBit_xor_mask _ (bitPos_lt i), if_pos rfl]

/-- Two bytes read alike at a position exactly when their bits there are equal (R85). -/
theorem readBit_eq_readBit_iff {v w : Byte} {p : Nat} : readBit v p = readBit w p ↔ v.getLsbD p = w.getLsbD p := by
  rw [readBit_eq, readBit_eq]
  cases v.getLsbD p <;> cases w.getLsbD p <;> decide

/-! ### The effect of the bit commands on an array of bits -/

section bitArray
variable (bits : Nat → Byte) (n : Nat)

/-- The effect of a command at one index of the array depends on that index alone. -/
theorem bitArrayAfter_congr (i : Instr) {bits bits' : Nat → Byte} {n : Nat} (h : bits n = bits' n) :
    bitArrayAfter i bits n = bitArrayAfter i bits' n := by
  cases i <;> simp only [bitArrayAfter, h]

theorem bitArrayAfter_setBit_same : bitArrayAfter (.setBit n) bits n = 1 := if_pos rfl
theorem bitArrayAfter_clearBit_same : bitArrayAfter (.clearBit n) bits n = 0 := if_pos rfl
theorem bitArrayAfter_toggleBit_same : bitArrayAfter (.toggleBit n) bits n = 1 - bits n := if_pos rfl

/-- R107: of a set or clear and a set or clear of the same index after it, the later one decides. -/
theorem bitArrayAfter_later {k : Int} {i j : Instr} (hi : i = .setBit k ∨ i = .clearBit k)
    (hj : j = .setBit k ∨ j = .clearBit k) : bitArrayAfter j (bitArrayAfter i bits) n = bitArrayAfter j bits n := by
  rcases hi with rfl | rfl <;> rcases hj with rfl | rfl <;> simp only [bitArrayAfter] <;> split <;> rfl

/-- R106: two toggles of one index have the effect of none. -/
theorem bitArrayAfter_toggleBit_twice (k : Int) :
    bitArrayAfter (.toggleBit k) (bitArrayAfter (.toggleBit k) bits) n = bits n := by
  simp only [bitArrayAfter]
  split
  · exact sub_sub_cancel 1 (bits n)
  · rfl

end bitArray

/-! ### The controller's commands through the bit view -/

section controller
variable {c : Config} {st st' st₁ st₂ st₃ : Store c} {i j k : Instr} {r q p : Response}

/-- R29: the bit index `8a + o` is bit `7 - o` of byte `a`. -/
theorem Store.bitAt_eq_readBit (st : Store c) (a : Nat) {o : Nat} (ho : o < 8) :
    st.bitAt (8 * a + o) = readBit (st.byteAt a) (7 - o) := by
  rw [Store.bitAt, locate_bytePos, locate_bitPos, show (8 * a + o) / 8 = a by omega, show (8 * a + o) % 8 = o by omega]

/-- R29: a byte's eight bits decide it. -/
theorem Store.byteAt_eq_of_bitAt {a : Nat} (h : ∀ o < 8, st.bitAt (8 * a + o) = st'.bitAt (8 * a + o)) :
    st.byteAt a = st'.byteAt a := by
  apply BitVec.eq_of_getLsbD_eq
  intro m hm
  have hbit := h (7 - m) (by omega)
  rwa [st.bitAt_eq_readBit a (by omega), st'.bitAt_eq_readBit a (by omega), show 7 - (7 - m) = m by omega,
    readBit_eq_readBit_iff] at hbit

/-- R20, R29: the `8N` bits decide the store. -/
theorem Store.ext_of_bitAt (h : ∀ n < 8 * c.byteCapacity.val, st.bitAt n = st'.bitAt n) : st = st' :=
  Store.eq_iff_byteAt.mpr fun _ ha => Store.byteAt_eq_of_bitAt fun _ ho => h _ (by omega)

/-- R29: whatever a command answers, the `8N` bits after it are those its effect on the array of bits gives. -/
theorem Store.bitAt_of_run (h : st.run i = .done st' r) {n : Nat} (hn : n < 8 * c.byteCapacity.val) :
    st'.bitAt n = bitArrayAfter i st.bitAt n := by
  obtain ⟨_, _, hrun, hbits⟩ := st.run_bits i
  rw [h] at hrun
  cases hrun
  exact hbits n hn

/-- R43: a command in range leaves every byte but the one it addresses. -/
theorem Store.byteAt_of_run (h : st.run i = .done st' r) (hin : InRangeFor c i) {a : Nat} (ha : a ≠ byteNumberOf i) :
    st'.byteAt a = st.byteAt a := by
  obtain ⟨_, _, _, hrun⟩ := Store.run_of_inRangeFor hin
  rw [hrun] at h
  cases h
  rw [Store.byteAt_setByteAt, if_neg ha]

/-- Where one command after another has the effect of a third one on every array of bits, it leaves the store the third one
leaves. -/
theorem Store.run_run_eq (hlaw : ∀ bits n, bitArrayAfter j (bitArrayAfter i bits) n = bitArrayAfter k bits n)
    (hi : st.run i = .done st₁ r) (hj : st₁.run j = .done st₂ q) (hk : st.run k = .done st₃ p) : st₂ = st₃ :=
  Store.ext_of_bitAt fun n hn => by
    rw [Store.bitAt_of_run hj hn, bitArrayAfter_congr j (Store.bitAt_of_run hi hn), hlaw, ← Store.bitAt_of_run hk hn]

/-- R107: a set or clear of an index leaves the same store with and without a set or clear of that index before it. -/
theorem Store.run_later_eq {n : Int} (hi : i = .setBit n ∨ i = .clearBit n) (hj : j = .setBit n ∨ j = .clearBit n)
    (h₁ : st.run i = .done st₁ r) (h₂ : st₁.run j = .done st₂ q) (h₃ : st.run j = .done st₃ p) : st₂ = st₃ :=
  Store.run_run_eq (fun bits m => bitArrayAfter_later bits m hi hj) h₁ h₂ h₃

/-- R103: TOGGLE_BIT answers the complement of the bit it found. -/
theorem Store.run_toggleBit (st : Store c) {n : Nat} (hn : n < boundOf c .bit) :
    ∃ st', st.run (.toggleBit n) = .done st' (Response.ok (1 - st.bitAt n)) := by
  have hdone := st.toggleBit_inRange hn
  rw [readBit_xor_locate] at hdone
  exact ⟨_, hdone⟩

end controller

/-! ### Each command in the host's machine -/

section machine
variable {s : State} (hready : s.lifecycle = .ready)
include hready

/-- R100: in range, GET_BIT adds its answer and changes nothing else. -/
theorem exec_getBit {n : Nat} (hn : n < 8 * s.cfg.byteCapacity.val) :
    exec (.getBit n) s = .next (s.after s.store (Response.ok (s.bitAt n))) :=
  exec_of_run hready (s.store.getBit_inRange (lt_boundOf_bit.mpr hn))

/-- What GET_BIT answers is the bit view (R29, R100). -/
theorem lastResponse_getBit {n : Nat} (hn : n < 8 * s.cfg.byteCapacity.val) :
    lastResponse (exec (.getBit n) s) = some (Response.ok (s.bitAt n)) := by
  rw [exec_getBit hready hn]
  exact after_getLast?_responses s _ _

/-- GET_BIT after a command answers what the command's effect on the array of bits gives (R29, R105). -/
theorem lastResponse_getBit_after {i : Instr} {st' : Store s.cfg} {r : Response}
    (hrun : s.store.run i = .done st' r) {n : Nat} (hn : n < 8 * s.cfg.byteCapacity.val) :
    lastResponse (exec (.getBit n) (s.after st' r)) = some (Response.ok (bitArrayAfter i s.store.bitAt n)) := by
  rw [lastResponse_getBit (s := s.after st' r) hready hn, after_bitAt, Store.bitAt_of_run hrun hn]

/-- R108: a bit command out of range adds its error response and changes nothing else. -/
theorem exec_bit_outOfRange {i : Instr} (hunit : i.unit = .bit)
    (hout : i.index < 0 ∨ 8 * (s.cfg.byteCapacity.val : Int) ≤ i.index) :
    exec i s = .next { s with responses := s.responses ++
      [⟨0x01, 0, 0x00, i.index, 8 * (s.cfg.byteCapacity.val : Int)⟩] } := by
  have hbound : i.index < 0 ∨ (boundOf s.cfg i.unit : Int) ≤ i.index := by
    rw [hunit, boundOf_bit]
    omega
  have hfields := outOfRange_eq_fields s .bit i.index
  rw [exec_of_run hready (s.store.run_outOfRange hbound), hunit]
  exact congrArg (fun r => Host.Outcome.next (s.after s.store r)) hfields

/-- R101 to R104: a command that writes one byte and answers OK changes that byte and the responses only. -/
theorem exec_of_run_setByteAt {i : Instr} {a : Nat} {ha : a < s.cfg.byteCapacity.val} {b v : Byte}
    (hrun : s.store.run i = .done (s.store.setByteAt a ha b) (Response.ok v)) :
    ∃ t, exec i s = .next t ∧ OnlyBufferAndResponses s t ∧ t.responses = s.responses ++ [Response.ok v] ∧
      ∀ k, t.byteAt k = if k = a then b else s.byteAt k :=
  ⟨_, exec_of_run hready hrun, ⟨rfl, rfl, rfl⟩, rfl, s.store.byteAt_setByteAt ha b⟩

end machine

/-- Settles O15: the bit view read in plain arithmetic is the answer in range. -/
theorem getBitMeaning : Obligations.GetBitMeaning := by
  refine ⟨fun s n hready hn => ?_, fun s index hready hout => exec_bit_outOfRange hready rfl hout,
    fun w hop => decode_eq_bitCommand rfl hop rfl⟩
  rw [exec_getBit hready hn, State.bitAt, Store.bitAt, readBit_eq_ofNat]
  rfl

/-- Settles O16: the byte written is the old one ORed with the mask. -/
theorem setBitMeaning : Obligations.SetBitMeaning := by
  refine ⟨fun s n hready hn => ?_, fun s index hready hout => exec_bit_outOfRange hready rfl hout,
    fun w hop => decode_eq_bitCommand rfl hop rfl⟩
  rw [← locate_mask_eq_ushiftRight]
  exact exec_of_run_setByteAt hready (s.store.setBit_inRange (lt_boundOf_bit.mpr hn))

/-- Settles O17: the byte written is the old one ANDed with the mask's complement, which is 255 minus the mask. -/
theorem clearBitMeaning : Obligations.ClearBitMeaning := by
  refine ⟨fun s n hready hn => ?_, fun s index hready hout => exec_bit_outOfRange hready rfl hout,
    fun w hop => decode_eq_bitCommand rfl hop rfl⟩
  have hcomplement : 255#8 - (locate n).mask = ~~~ (locate n).mask := BitVec.allOnes_sub_eq_not _
  rw [← locate_mask_eq_ushiftRight, hcomplement]
  exact exec_of_run_setByteAt hready (s.store.clearBit_inRange (lt_boundOf_bit.mpr hn))

/-- Settles O18: the byte written is the old one XORed with the mask, and the answer is that byte's addressed bit. -/
theorem toggleBitMeaning : Obligations.ToggleBitMeaning := by
  refine ⟨fun s n hready hn => ?_, fun s index hready hout => exec_bit_outOfRange hready rfl hout,
    fun w hop => decode_eq_bitCommand rfl hop rfl⟩
  rw [← locate_mask_eq_ushiftRight, ← locate_bitPos, ← one_sub_readBit, ← readBit_xor_locate]
  exact exec_of_run_setByteAt hready (s.store.toggleBit_inRange (lt_boundOf_bit.mpr hn))

/-- Settles O21: the word decodes to a command of a bit index, and the step runs it. -/
theorem bitCommandFailureLeavesStoreIntact : Obligations.BitCommandFailureLeavesStoreIntact := by
  intro s w rest hready hp hlow hhigh hout
  rw [← toNat_opField] at hlow hhigh
  rcases decode_cases w with ⟨_, _, i, hdec, hop, hindex, _⟩ | ⟨hunknown, _⟩
  · have hunit : i.unit = .bit := unit_eq_bit_iff.mpr (hop ▸ hhigh)
    rw [← hindex] at hout ⊢
    rw [stepRunsDecodedCommand s w rest i hp hdec]
    exact exec_bit_outOfRange (s := { s with pending := rest }) hready hunit hout
  · omega

/-! ### The laws -/

/-- Settles O32: on the array of bits the three writes change their own index only, and they write only its byte. -/
theorem bitWritesAreLocal : Obligations.BitWritesAreLocal := by
  intro s n m hready hn hm
  refine ⟨fun hne i hi => ?_, _, exec_getBit hready hn, rfl⟩
  obtain ⟨st', r, hrun⟩ := s.store.run_completes i
  have hne : (m : Int) ≠ n := by omega
  have hlocal : bitArrayAfter i s.bitAt m = s.bitAt m ∧ byteNumberOf i = n / 8 ∧ InRangeFor s.cfg i := by
    simp only [List.mem_cons, List.not_mem_nil, or_false] at hi
    rcases hi with rfl | rfl | rfl <;>
      exact ⟨if_neg hne, rfl, Int.natCast_nonneg n, Int.ofNat_lt.mpr (lt_boundOf_bit.mpr hn)⟩
  obtain ⟨hbit, hbyte, hin⟩ := hlocal
  refine ⟨s.after st' r, s.bitAt m, exec_of_run hready hrun, lastResponse_getBit hready hm, ?_,
    fun a ha => Store.byteAt_of_run hrun hin (hbyte ▸ ha)⟩
  exact (lastResponse_getBit_after hready hrun hm).trans (congrArg (some ∘ Response.ok) hbit)

/-- Settles O33: the effect of each command on the array of bits at its own index. -/
theorem bitWriteThenRead : Obligations.BitWriteThenRead := by
  intro s n hready hn
  obtain ⟨st₁, r₁, hset⟩ := s.store.run_completes (.setBit n)
  obtain ⟨st₂, r₂, hclear⟩ := s.store.run_completes (.clearBit n)
  obtain ⟨st₃, htoggle⟩ := s.store.run_toggleBit (n := n) (lt_boundOf_bit.mpr hn)
  refine ⟨⟨_, exec_of_run hready hset, ?_⟩, ⟨_, exec_of_run hready hclear, ?_⟩,
    ⟨_, _, exec_of_run hready htoggle, rfl, ?_⟩⟩
  · rw [lastResponse_getBit_after hready hset hn, bitArrayAfter_setBit_same]
    rfl
  · rw [lastResponse_getBit_after hready hclear hn, bitArrayAfter_clearBit_same]
    rfl
  · rw [lastResponse_getBit_after hready htoggle hn, bitArrayAfter_toggleBit_same]
    rfl

/-- Settles O34: on the array of bits two toggles have the effect of a GET_BIT, which is none. -/
theorem toggleIsInvolution : Obligations.ToggleIsInvolution := by
  intro s n hready hn
  have hbound : n < boundOf s.cfg .bit := lt_boundOf_bit.mpr hn
  obtain ⟨st₁, hfirst⟩ := s.store.run_toggleBit hbound
  obtain ⟨st₂, hsecond⟩ := st₁.run_toggleBit hbound
  obtain rfl : st₂ = s.store := Store.run_run_eq (k := .getBit n)
    (fun bits m => bitArrayAfter_toggleBit_twice bits m n) hfirst hsecond (s.store.getBit_inRange hbound)
  have hback : 1 - st₁.bitAt n = s.bitAt n := by
    rw [Store.bitAt_of_run hfirst hn, bitArrayAfter_toggleBit_same]
    exact sub_sub_cancel 1 (s.bitAt n)
  rw [hback] at hsecond
  refine ⟨_, _, s.bitAt n, exec_of_run hready hfirst,
    exec_of_run (s := s.after st₁ (Response.ok (1 - s.bitAt n))) hready hsecond, lastResponse_getBit hready hn, ?_⟩
  simp only [State.after, List.append_assoc, List.singleton_append]
  rfl

/-- Settles O35: on the array of bits the later of a set and a clear has its effect alone. -/
theorem setAndClearAreIdempotent : Obligations.SetAndClearAreIdempotent := by
  intro s n hready hn
  obtain ⟨st₁, r₁, hset⟩ := s.store.run_completes (.setBit n)
  obtain ⟨st₂, r₂, hclear⟩ := s.store.run_completes (.clearBit n)
  obtain ⟨st₁₁, q₁₁, hsetSet⟩ := st₁.run_completes (.setBit n)
  obtain ⟨st₂₂, q₂₂, hclearClear⟩ := st₂.run_completes (.clearBit n)
  obtain ⟨st₁₂, q₁₂, hsetClear⟩ := st₁.run_completes (.clearBit n)
  obtain ⟨st₂₁, q₂₁, hclearSet⟩ := st₂.run_completes (.setBit n)
  have hready₁ : (s.after st₁ r₁).lifecycle = .ready := hready
  have hready₂ : (s.after st₂ r₂).lifecycle = .ready := hready
  have hss : st₁₁ = st₁ := Store.run_later_eq (.inl rfl) (.inl rfl) hset hsetSet hset
  have hcc : st₂₂ = st₂ := Store.run_later_eq (.inr rfl) (.inr rfl) hclear hclearClear hclear
  have hsc : st₁₂ = st₂ := Store.run_later_eq (.inl rfl) (.inr rfl) hset hsetClear hclear
  have hcs : st₂₁ = st₁ := Store.run_later_eq (.inr rfl) (.inl rfl) hclear hclearSet hset
  refine ⟨_, _, exec_of_run hready hset, exec_of_run hready hclear, ?_, ?_,
    ⟨_, exec_of_run hready₁ hsetClear, congrArg Store.cells hsc, ?_⟩,
    ⟨_, exec_of_run hready₂ hclearSet, congrArg Store.cells hcs, ?_⟩⟩
  · rw [exec_of_run hready₁ hsetSet, hss]
    rfl
  · rw [exec_of_run hready₂ hclearClear, hcc]
    rfl
  · rw [lastResponse_getBit_after hready₁ hsetClear hn, bitArrayAfter_clearBit_same]
    rfl
  · rw [lastResponse_getBit_after hready₂ hclearSet hn, bitArrayAfter_setBit_same]
    rfl

end Sys2Proof.Machine
end

section
/-! The two byte commands in the host's machine (R120, R121), the bytes they write and read seen through GET_BIT (R122, R123),
and the run of LOAD_IMAGE after a reset (R71, R124). -/

namespace Sys2Proof.Machine

/-! ### Each command -/

/-- R120, R121: a byte command out of range adds its error response and changes nothing else. -/
theorem exec_byte_outOfRange {s : State} (hready : s.lifecycle = .ready) {i : Instr} (hunit : i.unit = .byte)
    (hout : i.index < 0 ∨ (s.cfg.byteCapacity.val : Int) ≤ i.index) :
    exec i s = .next { s with responses := s.responses ++
      [⟨0x01, 0, 0x01, i.index, (s.cfg.byteCapacity.val : Int)⟩] } := by
  have hrun := s.store.run_outOfRange (i := i) (by rwa [hunit, boundOf_byte])
  rw [hunit] at hrun
  exact exec_of_run hready hrun

/-- R63: the data field is the value read from bit 64 of the word upwards, of which a byte keeps 8 bits. -/
theorem dataField_eq_ofNat (w : CommandWord) : dataField w = BitVec.ofNat 8 (w.toNat / 2 ^ 64) :=
  BitVec.eq_of_toNat_eq (by rw [toNat_dataField, BitVec.toNat_ofNat])

/-- Settles O20: in range the controller answers the byte and leaves the store. -/
theorem getByteMeaning : Obligations.GetByteMeaning := by
  refine ⟨fun s k hready hk => exec_of_run hready (s.store.getByte_inRange hk),
    fun s index hready hout => exec_byte_outOfRange hready rfl hout, fun w hop => ?_⟩
  rw [decode_eq_ite, toNat_opField, hop, indexField_eq_toInt_ofNat]
  rfl

/-- Settles O19: in range the controller writes the one byte; the word's data field is the value. -/
theorem setByteMeaning : Obligations.SetByteMeaning := by
  refine ⟨fun s k v hready hk => exec_of_run_setByteAt hready (s.store.setByte_inRange hk v),
    fun s index v hready hout => exec_byte_outOfRange hready rfl hout, fun w hop => ?_⟩
  rw [decode_eq_ite, toNat_opField, hop, indexField_eq_toInt_ofNat, dataField_eq_ofNat]
  rfl

/-! ### Bytes seen through bits -/

section answers
variable {s : State} (hready : s.lifecycle = .ready) {k : Nat} (hk : k < s.cfg.byteCapacity.val)
include hready hk

/-- What GET_BYTE answers is the byte view (R28, R121). -/
theorem lastResponse_getByte : lastResponse (exec (.getByte k) s) = some ⟨0x00, s.byteAt k, 0, 0, 0⟩ := by
  rw [getByteMeaning.1 s k hready hk]
  exact List.getLast?_concat

/-- What GET_BIT answers at offset `b` of byte `k` is bit `7 - b` of that byte (R29, R100). -/
theorem lastResponse_getBit_of_byte {b : Nat} (hb : b < 8) :
    lastResponse (exec (.getBit ((8 * k + b : Nat) : Int)) s) =
      some ⟨0x00, BitVec.ofNat 8 ((s.byteAt k).toNat / 2 ^ (7 - b) % 2), 0, 0, 0⟩ := by
  have hbyte : (8 * k + b) / 8 = k := by omega
  have hoffset : (8 * k + b) % 8 = b := by omega
  rw [getBitMeaning.1 s (8 * k + b) hready (by omega), hbyte, hoffset]
  exact List.getLast?_concat

end answers

/-- Settles O36: after the write the byte is `v`, and GET_BIT reads its bits. -/
theorem byteWriteSeenThroughBits : Obligations.ByteWriteSeenThroughBits := by
  intro s k v hready hk
  obtain ⟨t, hexec, ⟨hcfg, hlife, _⟩, _, hbytes⟩ := setByteMeaning.1 s k v hready hk
  refine ⟨t, hexec, fun b hb => ?_⟩
  rw [lastResponse_getBit_of_byte (hlife.trans hready) (hcfg ▸ hk) hb, hbytes, if_pos rfl]

/-- The low `n` bits of a number are the sum of its bits below `n`, each times its weight (R8(a)). -/
theorem mod_two_pow_eq_sum_bits (m n : Nat) : m % 2 ^ n = ∑ p ∈ Finset.range n, m / 2 ^ p % 2 * 2 ^ p := by
  induction n with
  | zero => rw [pow_zero, Nat.mod_one, Finset.sum_range_zero]
  | succ n ih => rw [Nat.mod_pow_succ, ih, Finset.sum_range_succ, Nat.mul_comm (2 ^ n)]

/-- R8, R123: a byte is the sum of its eight bits, each times its weight, the most significant one first. -/
theorem byte_eq_sum_bits_msbFirst (v : Byte) :
    v.toNat = ∑ b ∈ Finset.range 8, v.toNat / 2 ^ (7 - b) % 2 * 2 ^ (7 - b) := by
  calc v.toNat = v.toNat % 2 ^ 8 := (Nat.mod_eq_of_lt v.isLt).symm
    _ = ∑ p ∈ Finset.range 8, v.toNat / 2 ^ p % 2 * 2 ^ p := mod_two_pow_eq_sum_bits _ _
    _ = _ := (Finset.sum_range_reflect (fun p => v.toNat / 2 ^ p % 2 * 2 ^ p) 8).symm

/-- Settles O37: GET_BYTE and GET_BIT both answer from the byte view, in which SET_BYTE changes the one byte. -/
theorem bitsSeenThroughByteRead : Obligations.BitsSeenThroughByteRead := by
  intro s k hready hk
  refine ⟨⟨fun b => (s.byteAt k).toNat / 2 ^ (7 - b) % 2, s.byteAt k,
    fun b hb => ⟨lastResponse_getBit_of_byte hready hk hb, Nat.le_of_lt_succ (Nat.mod_lt _ two_pos)⟩,
    lastResponse_getByte hready hk, byte_eq_sum_bits_msbFirst _⟩, fun v => ?_⟩
  obtain ⟨t, hexec, ⟨hcfg, hlife, _⟩, _, hbytes⟩ := setByteMeaning.1 s k v hready hk
  have hready' : t.lifecycle = .ready := hlife.trans hready
  refine ⟨t, hexec, ?_, fun j hj hjk => ?_⟩
  · rw [lastResponse_getByte hready' (hcfg ▸ hk), hbytes, if_pos rfl]
  · have hj' : j < t.cfg.byteCapacity.val := hcfg ▸ hj
    have hsame : t.byteAt j = s.byteAt j := (hbytes j).trans (if_neg hjk)
    refine ⟨?_, ?_, fun b hb => ?_⟩
    · rw [lastResponse_getByte hready' hj', lastResponse_getByte hready hj, hsame]
    · rw [lastResponse_getByte hready hj, Option.isSome_some]
    · rw [lastResponse_getBit_of_byte hready' hj' hb, lastResponse_getBit_of_byte hready hj hb, hsame]

/-! ### Loading an image -/

/-- R71, R120, by induction on the bytes: a ready machine with them presented from address `k` upwards writes each at its
address, leaves the bytes outside and answers each command with OK 0. -/
theorem reaches_setBytesFrom {c : Config} (st : Store c) {k : Nat} {bytes : List Byte}
    (hfit : k + bytes.length ≤ c.byteCapacity.val) (rest : List HostMove) (rs₀ : List Response) :
    ∃ st' : Store c, Reaches bytes.length ⟨c, st, .ready, setBytesFrom k bytes ++ rest, rs₀⟩
        ⟨c, st', .ready, rest, rs₀ ++ List.replicate bytes.length (Response.ok 0)⟩ ∧
      (∀ (j : Nat) (h : j < bytes.length), st'.byteAt (k + j) = bytes[j]) ∧
      ∀ a, a < k ∨ k + bytes.length ≤ a → st'.byteAt a = st.byteAt a := by
  induction bytes generalizing st k rs₀ with
  | nil =>
    refine ⟨st, ?_, fun j h => absurd h (Nat.not_lt_zero j), fun _ _ => rfl⟩
    rw [List.length_nil, List.replicate_zero, List.append_nil]
    exact reaches_zero _
  | cons b bytes ih =>
    rw [List.length_cons] at hfit
    have hk : k < c.byteCapacity.val := by omega
    obtain ⟨st', hrun, himage, hframe⟩ := ih (st.setByteAt k hk b) (k := k + 1) (by omega) (rs₀ ++ [Response.ok 0])
    have hwf : (Instr.setByte k b).WellFormed := getByte_wellFormed hk
    refine ⟨st', ?_, fun j h => ?_, fun a ha => ?_⟩
    · rw [List.length_cons, List.replicate_succ, List.append_cons]
      exact (reaches_succ (step_encode hwf (st.setByte_inRange hk b) _ rs₀)).mpr hrun
    · cases j with
      | zero => rw [Nat.add_zero, hframe k (by omega), Store.byteAt_setByteAt, if_pos rfl, List.getElem_cons_zero]
      | succ j => rw [show k + (j + 1) = k + 1 + j by omega, himage j (Nat.lt_of_succ_lt_succ h), List.getElem_cons_succ]
    · rw [List.length_cons] at ha
      rw [hframe a (by omega), Store.byteAt_setByteAt, if_neg (by omega)]

/-- Settles O51: the reset event leaves the zero store ready, and the image is written into it from address 0. -/
theorem loadImageLoadsTheImage : Obligations.LoadImageLoadsTheImage := by
  intro s bytes rest hfit hp
  obtain ⟨st', hrun, himage, hframe⟩ :=
    reaches_setBytesFrom (Store.zero s.cfg) (k := 0) (bytes := bytes) (by omega) rest s.responses
  refine ⟨_, (reaches_succ (step_reset hp)).mpr hrun, rfl, rfl, fun k h => ?_, fun k h => ?_⟩
  · rw [← himage k h, Nat.zero_add]
    rfl
  · exact hframe k (.inr (by omega))

end Sys2Proof.Machine
end

section
/-! The error contract (R141, R142, R146, R148): the range check alone decides a command's outcome, and an error leaves
nothing behind but its response. -/

namespace Sys2Proof.Machine

/-! ### The range decides -/

/-- R7, R141: the bound of a unit in plain arithmetic. -/
theorem boundOf_eq_ite (c : Config) (u : IndexUnit) : (boundOf c u : Int) =
    if u = .bit then 8 * (c.byteCapacity.val : Int) else (c.byteCapacity.val : Int) := by
  cases u with
  | bit => rw [if_pos rfl, boundOf_bit]; omega
  | byte => rfl

/-- R148: a command whose index is not out of range for its unit adds one OK response. -/
theorem exec_inRange {s : State} (hready : s.lifecycle = .ready) {i : Instr}
    (hin : ¬ (i.index < 0 ∨ (boundOf s.cfg i.unit : Int) ≤ i.index)) :
    ∃ st' v, exec i s = .next (s.after st' (Response.ok v)) := by
  obtain ⟨st', v, hrun⟩ := s.store.run_inRange (i := i) (n := i.index.toNat) (by omega) (by omega)
  exact ⟨st', v, exec_of_run hready hrun⟩

/-- Settles O22: the two outcomes of the range check against the bound of the command's own unit. -/
theorem rangeDecidesOutcome : Obligations.RangeDecidesOutcome := by
  intro s i hready bound code
  have hbound : bound = (boundOf s.cfg i.unit : Int) := (boundOf_eq_ite s.cfg i.unit).symm
  by_cases hout : i.index < 0 ∨ bound ≤ i.index
  · rw [if_pos hout, exec_of_run hready (s.store.run_outOfRange (hbound ▸ hout))]
    exact congrArg (fun r => Host.Outcome.next (s.after s.store r)) (outOfRange_eq_fields s i.unit i.index)
  · rw [if_neg hout]
    obtain ⟨st', v, hexec⟩ := exec_inRange hready (hbound ▸ hout)
    exact ⟨_, v, hexec, rfl⟩

/-! ### Errors are not sticky -/

section history
variable {s : State} (hready : s.lifecycle = .ready)
include hready

/-- R11: in a ready machine every command delivers a response. -/
theorem lastResponse_exec_isSome (j : Instr) : (lastResponse (exec j s)).isSome := by
  obtain ⟨st', r, hrun⟩ := s.store.run_completes j
  rw [exec_of_run hready hrun, lastResponse, after_getLast?_responses, Option.isSome_some]

/-- R146: after a response that came with no change of the store, and whatever moves were taken, a command does what it
would have done before. -/
theorem exec_after_same_store (j : Instr) (p : List HostMove) (r : Response) :
    (lastResponse (exec j s)).isSome ∧
      lastResponse (exec j (State.after { s with pending := p } s.store r)) = lastResponse (exec j s) ∧
      bufferAfter (exec j (State.after { s with pending := p } s.store r)) = bufferAfter (exec j s) :=
  ⟨lastResponse_exec_isSome hready j,
    exec_ignores_history j s.store s.lifecycle p s.pending (s.responses ++ [r]) s.responses⟩

/-- R143: a step on an illegal word takes it, adds the IllegalCommand response and leaves the store. -/
theorem step_of_decode_illegalOpcode {w : CommandWord} {op : BitVec 8} {rest : List HostMove}
    (hp : s.pending = .command w :: rest) (hdec : decode w = .illegalOpcode op) :
    step s = .next (State.after { s with pending := rest } s.store Response.illegalCommand) := by
  rw [step_command hp, Store.step_of_decode_illegalOpcode hdec]
  exact perform_done (s := { s with pending := rest }) hready _ _

end history

/-- Settles O23: both kinds of error leave the store as it is, and what else they change no command reads. -/
theorem errorsAreNotSticky : Obligations.ErrorsAreNotSticky := by
  refine ⟨fun s i j hready hout => ?_, fun s w op rest j hready hp hdec => ?_⟩
  · obtain ⟨r, hrun⟩ := Store.run_of_not_inRangeFor (c := s.cfg) hout
    exact ⟨_, exec_of_run hready (hrun s.store), exec_after_same_store hready j s.pending r⟩
  · exact ⟨_, step_of_decode_illegalOpcode hready hp hdec, exec_after_same_store hready j rest Response.illegalCommand⟩

end Sys2Proof.Machine
end

section
/-! Before, at and after a reset: no command has a meaning before the first one (R172), the reset event clears the buffer
(R170, R171), and a run from a ready machine trades every pending command for one response (R48, R179). -/

namespace Sys2Proof.Machine

/-! ### Before the first reset -/

/-- Settles O5: a presented word and a command are both a reply of the controller carried out, which the machine refuses
before its first reset whatever the reply is. -/
theorem commandBeforeFirstResetRefused : Obligations.CommandBeforeFirstResetRefused := by
  refine fun s hbefore => ⟨fun w rest hp => ?_, fun i => ?_⟩
  · rw [step_command hp]
    exact perform_beforeReset (s := { s with pending := rest }) hbefore _
  · rw [exec_eq_perform, perform_beforeReset hbefore]

/-! ### The reset event -/

/-- After the reset event every bit reads 0 (R29, R170). -/
@[simp] theorem resetEvent_bitAt (s : State) (n : Nat) : (resetEvent s).bitAt n = 0 := readBit_zero _

/-- R170: GET_BIT right after the reset event answers OK 0. -/
theorem lastResponse_getBit_resetEvent (s : State) {n : Nat} (hn : n < 8 * s.cfg.byteCapacity.val) :
    lastResponse (exec (.getBit n) (resetEvent s)) = some (Response.ok 0) := by
  rw [lastResponse_getBit (resetEvent_lifecycle s) hn, resetEvent_bitAt]

/-- R170: GET_BYTE right after the reset event answers OK 0. -/
theorem lastResponse_getByte_resetEvent (s : State) {k : Nat} (hk : k < s.cfg.byteCapacity.val) :
    lastResponse (exec (.getByte k) (resetEvent s)) = some (Response.ok 0) := by
  rw [lastResponse_getByte (resetEvent_lifecycle s) hk, resetEvent_byteAt]
  rfl

/-- Settles O4: the step is the reset event on the state with the move taken; it leaves a ready machine with the zero store,
from which GET_BIT and GET_BYTE answer. -/
theorem resetEventZeroesBuffer : Obligations.ResetEventZeroesBuffer := fun s rest hp =>
  ⟨_, step_reset hp, rfl, rfl, rfl, rfl, resetEvent_byteAt _,
    fun _ => lastResponse_getBit_resetEvent { s with pending := rest },
    fun _ => lastResponse_getByte_resetEvent { s with pending := rest }⟩

/-! ### A run answers every command -/

/-- The commands among a list of moves. -/
def commandCount (moves : List HostMove) : Nat := (moves.filter fun m => m != .reset).length

@[simp] theorem commandCount_nil : commandCount [] = 0 := rfl

@[simp] theorem commandCount_reset (rest : List HostMove) : commandCount (.reset :: rest) = commandCount rest := rfl

@[simp] theorem commandCount_command (w : CommandWord) (rest : List HostMove) :
    commandCount (.command w :: rest) = commandCount rest + 1 := rfl

/-- R48: a step keeps the earlier responses in front, and the responses it adds and the commands it leaves pending are
together as many as the commands that were pending. -/
theorem step_trades_commands_for_responses {s t : State} (h : step s = .next t) :
    ∃ rs, t.responses = s.responses ++ rs ∧ rs.length + commandCount t.pending = commandCount s.pending := by
  rcases step_next_cases h with ⟨_, rfl⟩ | ⟨rest, hp, rfl⟩ | ⟨w, rest, st', r, hp, _, _, rfl⟩
  · exact ⟨[], (List.append_nil _).symm, Nat.zero_add _⟩
  · refine ⟨[], (List.append_nil _).symm, ?_⟩
    rw [hp, commandCount_reset]
    exact Nat.zero_add _
  · refine ⟨[r], rfl, ?_⟩
    rw [hp, commandCount_command]
    exact Nat.add_comm 1 _

/-- R179, by induction on the number of steps: what a step trades, a run trades. -/
theorem reaches_trades_commands_for_responses {k : Nat} {s t : State} (h : Reaches k s t) :
    ∃ rs, t.responses = s.responses ++ rs ∧ rs.length + commandCount t.pending = commandCount s.pending := by
  induction k generalizing s with
  | zero =>
    obtain rfl : s = t := h
    exact ⟨[], (List.append_nil _).symm, Nat.zero_add _⟩
  | succ k ih =>
    obtain ⟨u, hstep, hrun⟩ := h
    obtain ⟨rs, hrs, hstepCount⟩ := step_trades_commands_for_responses hstep
    obtain ⟨qs, hqs, hrunCount⟩ := ih hrun
    refine ⟨rs ++ qs, by rw [hqs, hrs, List.append_assoc], ?_⟩
    rw [List.length_append]
    omega

/-- R55: a ready machine takes one move a step, so as many steps as there are moves take them all. -/
theorem reaches_pending_nil {s : State} (hready : s.lifecycle = .ready) :
    ∃ t, Reaches s.pending.length s t ∧ t.pending = [] := by
  induction hlen : s.pending.length generalizing s with
  | zero => exact ⟨s, reaches_zero s, List.length_eq_zero_iff.mp hlen⟩
  | succ k ih =>
    obtain ⟨u, hstep, hready', hpending⟩ := step_ready hready
    have hlen' : u.pending.length = k := by rw [hpending, List.length_tail, hlen, Nat.add_sub_cancel]
    obtain ⟨t, hrun, hnone⟩ := ih hready' hlen'
    exact ⟨t, (reaches_succ hstep).mpr hrun, hnone⟩

/-- Settles O50: the run that takes every move leaves no command pending, so it has traded each for a response. -/
theorem runAnswersEveryCommandOnce : Obligations.RunAnswersEveryCommandOnce := by
  intro s hready
  obtain ⟨t, hrun, hnone⟩ := reaches_pending_nil hready
  obtain ⟨rs, hrs, hcount⟩ := reaches_trades_commands_for_responses hrun
  rw [hnone, commandCount_nil] at hcount
  exact ⟨t, rs, hrun, hnone, hrs, hcount⟩

end Sys2Proof.Machine
end
